-- ==== Sys2Proof/Word.lean ====
section
/-! DEFINITION. The unit of data: the byte and the byte string (R10). -/

namespace Sys2Proof

/-- "A *byte* is an unsigned 8-bit value" (R10). -/
abbrev Byte := BitVec 8

/-- "A *byte string* is a finite sequence of bytes written in stream order, earliest byte first" (R10):
index 0 is the head of the list. -/
abbrev Bytes := List Byte

end Sys2Proof
end

