-- ==== Sys2Proof/Config.lean ====
section
/-! DEFINITION. What an instance of the block fixes for good (R7), and the two open tables of the
decoder context (R164, R170) as uninterpreted constants. -/

namespace Sys2Proof

/-- The implementation parameter of R7: `CAP`, the number of cells of the buffer, under the
well-formedness condition `CAP >= 8`, which the data carries. The spec gives no number (D4: OPEN). -/
structure Config where
  cap : Nat
  capOk : 8 ≤ cap
deriving DecidableEq, Repr

/-- "A configuration with `CAP < 8` is refused" (D4): no instance is created for it. -/
def Config.create (n : Nat) : Option Config :=
  if h : 8 ≤ n then some ⟨n, h⟩ else none

/-- Whether the percentage of a raw light level whose `raw * 100 / 255` is no whole number is rounded up: "The
rounding of `raw × 100 / 255` is not stated" (R164). Decoder context only: no step reads it (log 21). -/
opaque Config.lightRoundsUp : Byte → Bool

/-- The baud rate of an enumerant between the two ends the source gives (R170, U13). Decoder context
only: no step reads it (log 21). -/
opaque Config.baudBetween : Byte → Nat

end Sys2Proof
end

