-- ==== Sys2Proof/Syntax.lean ====
section
/-! DEFINITION. The operations of the block: one constructor of `Instr` per row of
spec/opcode_table.json. -/

namespace Sys2Proof

/-- "**Family**: the tag `Telemetry` or `Ack` the assembler attaches to a frame" (R15). -/
inductive Family where
  | telemetry
  | ack
deriving DecidableEq, Repr

/-- The "14-byte array" of per-gate sensitivities, gate 0 first (R133, R135). The named commands
require `len(g) = 14`, so the data carries the check. -/
structure Gates where
  bytes : Bytes
  len : bytes.length = 14
deriving DecidableEq, Repr

/-- The operations, in the order of the opcode table (R14, R68, R74).

`p` is the caller's payload where the source states none (R143); `encode` is the general operation
`ENCODE op, p` with a 16-bit `op` (R120); `telemetry body` and `ack body` are the two receive
families, `body` being "everything between header and footer" (R74); `feed` and `reset` are the
assembler's own operations. -/
inductive Instr where
  | cfgEnable
  | cfgDisable
  | queryMac
  | btSetOn
  | btSetOff
  | setBasic (mn mx : Byte) (t : BitVec 16) (lvl : Byte)
  | setMoveSens (g : Gates)
  | setStillSens (g : Gates)
  | queryVersion (p : Bytes)
  | queryResolution (p : Bytes)
  | setResolution (p : Bytes)
  | queryBasic (p : Bytes)
  | queryMoveSens (p : Bytes)
  | queryStillSens (p : Bytes)
  | calStart (p : Bytes)
  | calQuery (p : Bytes)
  | setBaud (p : Bytes)
  | factoryReset (p : Bytes)
  | restart (p : Bytes)
  | opA9 (p : Bytes)
  | encode (op : BitVec 16) (p : Bytes)
  | telemetry (body : Bytes)
  | ack (body : Bytes)
  | feed (b : Byte)
  | reset
deriving DecidableEq, Repr

/-- Why a byte string is the word of no operation (R74: no row of the table selects it). -/
inductive DecodeError where
  /-- 2 to 7 bytes: longer than an input byte, shorter than the shortest frame (R62). -/
  | noRowOfThisLength
  /-- 8 bytes or more that neither family's header and footer bound (R61, R74). -/
  | notAFrame
deriving DecidableEq, Repr

end Sys2Proof
end

