-- ==== Sys2Proof/WellFormed.lean ====
section
/-! DEFINITION. Which operands the spec admits (R121, R131). -/

namespace Sys2Proof

/-- "the longest has `n = 65533`" (R62, R121): a payload the length field can express. -/
def payloadFits (p : Bytes) : Bool := decide (p.length ≤ 65533)

/-- The operands the spec admits: a payload of at most 65533 bytes and an opcode of at most `0x00FF`
(R121), a maximum gate of at most 254 (R131). The fourteen bytes of a gate array are in its type.
An operation that is not well-formed still runs: its result is a refusal (R12, R187). -/
def Instr.wellFormed : Instr → Bool
  | .cfgEnable => true
  | .cfgDisable => true
  | .queryMac => true
  | .btSetOn => true
  | .btSetOff => true
  | .setBasic _ mx _ _ => decide (mx.toNat ≤ 254)
  | .setMoveSens _ => true
  | .setStillSens _ => true
  | .queryVersion p => payloadFits p
  | .queryResolution p => payloadFits p
  | .setResolution p => payloadFits p
  | .queryBasic p => payloadFits p
  | .queryMoveSens p => payloadFits p
  | .queryStillSens p => payloadFits p
  | .calStart p => payloadFits p
  | .calQuery p => payloadFits p
  | .setBaud p => payloadFits p
  | .factoryReset p => payloadFits p
  | .restart p => payloadFits p
  | .opA9 p => payloadFits p
  | .encode op p => decide (op.toNat ≤ 0xFF) && payloadFits p
  | .telemetry _ => true
  | .ack _ => true
  | .feed _ => true
  | .reset => true

end Sys2Proof
end

