-- ==== Sys2Proof/Decode.lean ====
section
/-! DEFINITION. Words of operations: the frame constants (R61), the decoder (total on any byte
string, refusing by name), the encoder written from the rows of the opcode table, and the table
itself as data (R74). -/

namespace Sys2Proof

/-! ## The frame constants and byte order -/

/-- The header of a family: `HDR_T` or `HDR_C` (R61). -/
def Family.hdr : Family → Bytes
  | .telemetry => [0xF4, 0xF3, 0xF2, 0xF1]
  | .ack => [0xFD, 0xFC, 0xFB, 0xFA]

/-- The footer of a family: `FTR_T` or `FTR_C` (R61). -/
def Family.ftr : Family → Bytes
  | .telemetry => [0xF8, 0xF7, 0xF6, 0xF5]
  | .ack => [0x04, 0x03, 0x02, 0x01]

/-- `LE16(v)`: `[v bits[7:0], v bits[15:8]]`, low byte first (R10, R40). -/
def le16 (v : Nat) : Bytes := [BitVec.ofNat 8 v, BitVec.ofNat 8 (v / 256)]

/-- The number two bytes stand for, low byte first (R40). -/
def readLE16 (lo hi : Byte) : Nat := lo.toNat + 256 * hi.toNat

/-! ## The decoder -/

/-- What stands between the header and the footer of a frame of family `f`, if `F` is a well-formed
frame of that family (R16). -/
def stripFrame (f : Family) (F : Bytes) : Option Bytes :=
  if 8 ≤ F.length ∧ F.take 4 = f.hdr ∧ F.drop (F.length - 4) = f.ftr then
    some ((F.drop 4).take (F.length - 8))
  else none

/-- The opcode and payload of a command frame, from what stands between its header and its footer:
the length field is `2 + n` and the high byte of the opcode is `0x00` (R60, R63, R64, R74). -/
def commandOf : Bytes → Option (Byte × Bytes)
  | lo :: hi :: op :: opHi :: p =>
    if opHi = 0x00 ∧ readLE16 lo hi = 2 + p.length then some (op, p) else none
  | _ => none

/-- `SET_BASIC` from its five payload bytes (R131). The second byte is `mx + 1`; a second byte of `0x00` is
that of the `mx = 255` whose successor does not fit: the row selects the word, and the operation is not
well-formed and is refused when it runs (D29, log 12). -/
def setBasicOf : Bytes → Option Instr
  | [mn, mx1, tLo, tHi, lvl] =>
    some (.setBasic mn (mx1 - 1) (BitVec.ofNat 16 (readLE16 tLo tHi)) lvl)
  | _ => none

/-- A gate array from a payload of exactly 14 bytes (R133, R135). -/
def gatesOf (p : Bytes) : Option Gates :=
  if h : p.length = 14 then some ⟨p, h⟩ else none

/-- The rows with a fixed frame (format `CMD_FIXED`), by opcode and payload. -/
def fixedRow (op : Byte) (p : Bytes) : Option Instr :=
  if op = 0xFF then (if p = [0x01, 0x00] then some .cfgEnable else none)
  else if op = 0xFE then (if p = [] then some .cfgDisable else none)
  else if op = 0xA5 then (if p = [0x01, 0x00] then some .queryMac else none)
  else if op = 0xA4 then
    (if p = [0x01, 0x00] then some .btSetOn else if p = [0x00, 0x00] then some .btSetOff else none)
  else if op = 0x02 then setBasicOf p
  else if op = 0x03 then (gatesOf p).map .setMoveSens
  else if op = 0x04 then (gatesOf p).map .setStillSens
  else none

/-- The rows with a payload of the caller's (format `CMD_VAR`), by opcode; the last is `ENCODE`, which
matches any opcode (R74). -/
def varRow (op : Byte) (p : Bytes) : Instr :=
  if op = 0xA0 then .queryVersion p
  else if op = 0x11 then .queryResolution p
  else if op = 0x01 then .setResolution p
  else if op = 0x12 then .queryBasic p
  else if op = 0x13 then .queryMoveSens p
  else if op = 0x14 then .queryStillSens p
  else if op = 0x0B then .calStart p
  else if op = 0x1B then .calQuery p
  else if op = 0xA1 then .setBaud p
  else if op = 0xA2 then .factoryReset p
  else if op = 0xA3 then .restart p
  else if op = 0xA9 then .opA9 p
  else .encode (op.setWidth 16) p

/-- "A decoder of command frames takes the first row that selects the frame", and the more specific
row comes before the generic row of the same opcode (R74). -/
def named (op : Byte) (p : Bytes) : Instr := (fixedRow op p).getD (varRow op p)

/-- The operation whose word is `F`, in the order of the opcode table (R74): the empty word is `RESET`
(format `OP_NONE`), one byte is `FEED` (format `OP_BYTE`), a frame bounded by the command constants is
a command where a command row selects it and an `ACK` otherwise, a frame bounded by the telemetry
constants is a `TELEMETRY`. Anything else is refused by name. -/
def decode (F : Bytes) : Except DecodeError Instr :=
  match F with
  | [] => .ok .reset
  | [b] => .ok (.feed b)
  | _ =>
    if F.length < 8 then .error .noRowOfThisLength
    else
      match stripFrame .ack F with
      | some body =>
        match commandOf body with
        | some (op, p) => .ok (named op p)
        | none => .ok (.ack body)
      | none =>
        match stripFrame .telemetry F with
        | some body => .ok (.telemetry body)
        | none => .error .notAFrame

/-! ## The encoder -/

/-- A word of a `CMD_VAR` row: the leading offsets with the length field `2 + n`, the payload, the tail. -/
def commandWord (op : Byte) (p : Bytes) : Bytes :=
  [0xFD, 0xFC, 0xFB, 0xFA] ++ le16 (2 + p.length) ++ [op, 0x00] ++ p ++ [0x04, 0x03, 0x02, 0x01]

/-- The word of an operation, written from its row of spec/opcode_table.json. -/
def encode : Instr → Bytes
  | .cfgEnable => [0xFD, 0xFC, 0xFB, 0xFA, 0x04, 0x00, 0xFF, 0x00, 0x01, 0x00, 0x04, 0x03, 0x02, 0x01]
  | .cfgDisable => [0xFD, 0xFC, 0xFB, 0xFA, 0x02, 0x00, 0xFE, 0x00, 0x04, 0x03, 0x02, 0x01]
  | .queryMac => [0xFD, 0xFC, 0xFB, 0xFA, 0x04, 0x00, 0xA5, 0x00, 0x01, 0x00, 0x04, 0x03, 0x02, 0x01]
  | .btSetOn => [0xFD, 0xFC, 0xFB, 0xFA, 0x04, 0x00, 0xA4, 0x00, 0x01, 0x00, 0x04, 0x03, 0x02, 0x01]
  | .btSetOff => [0xFD, 0xFC, 0xFB, 0xFA, 0x04, 0x00, 0xA4, 0x00, 0x00, 0x00, 0x04, 0x03, 0x02, 0x01]
  | .setBasic mn mx t lvl =>
    [0xFD, 0xFC, 0xFB, 0xFA, 0x07, 0x00, 0x02, 0x00] ++
      [mn, mx + 1, t.extractLsb' 0 8, t.extractLsb' 8 8, lvl] ++ [0x04, 0x03, 0x02, 0x01]
  | .setMoveSens g =>
    [0xFD, 0xFC, 0xFB, 0xFA, 0x10, 0x00, 0x03, 0x00] ++ g.bytes ++ [0x04, 0x03, 0x02, 0x01]
  | .setStillSens g =>
    [0xFD, 0xFC, 0xFB, 0xFA, 0x10, 0x00, 0x04, 0x00] ++ g.bytes ++ [0x04, 0x03, 0x02, 0x01]
  | .queryVersion p => commandWord 0xA0 p
  | .queryResolution p => commandWord 0x11 p
  | .setResolution p => commandWord 0x01 p
  | .queryBasic p => commandWord 0x12 p
  | .queryMoveSens p => commandWord 0x13 p
  | .queryStillSens p => commandWord 0x14 p
  | .calStart p => commandWord 0x0B p
  | .calQuery p => commandWord 0x1B p
  | .setBaud p => commandWord 0xA1 p
  | .factoryReset p => commandWord 0xA2 p
  | .restart p => commandWord 0xA3 p
  | .opA9 p => commandWord 0xA9 p
  | .encode op p => commandWord (op.setWidth 8) p
  | .telemetry body => [0xF4, 0xF3, 0xF2, 0xF1] ++ body ++ [0xF8, 0xF7, 0xF6, 0xF5]
  | .ack body => [0xFD, 0xFC, 0xFB, 0xFA] ++ body ++ [0x04, 0x03, 0x02, 0x01]
  | .feed b => [b]
  | .reset => []

/-- The first row of the table that selects the word of `i` is the row of `i` itself. It fails only for
an `ENCODE` whose opcode and payload are a named command's (R75: the name stands for the same word)
and for an `ACK` whose bytes are a command frame's (log 13). -/
def Instr.ownsWord : Instr → Bool
  | .encode op p => decide (named (op.setWidth 8) p = .encode op p)
  | .ack body => decide (commandOf body = none)
  | _ => true

/-! ## The opcode table as data (R74) -/

/-- The formats of R74. -/
inductive Format where
  | cmdFixed
  | cmdVar
  | rxVar
  | opByte
  | opNone
deriving DecidableEq, Repr

/-- A row of spec/opcode_table.json: `pattern` and `mask` are its `match` and `mask`, frame offset 0
first. -/
structure Row where
  mnemonic : String
  format : Format
  pattern : Bytes
  mask : Bytes
  tail : Bytes
deriving DecidableEq, Repr

/-- `F[i] & mask[i] = match[i]` for every offset `i` the row covers. -/
def maskedEq : Bytes → Bytes → Bytes → Bool
  | b :: F, m :: mask, v :: pattern => decide (b &&& m = v) && maskedEq F mask pattern
  | _, [], [] => true
  | _, _, _ => false

/-- Whether a row selects the byte string `F` (R74). -/
def Row.selects (r : Row) (F : Bytes) : Bool :=
  match r.format with
  | .cmdFixed => decide (F.length = r.pattern.length) && maskedEq F r.mask r.pattern
  | .cmdVar =>
    maskedEq F r.mask r.pattern && decide (F.drop (F.length - 4) = r.tail) &&
      decide ((F[4]?.getD 0).toNat + 256 * (F[5]?.getD 0).toNat + 10 = F.length)
  | .rxVar =>
    decide (8 ≤ F.length) && maskedEq F r.mask r.pattern && decide (F.drop (F.length - 4) = r.tail)
  | .opByte => decide (F.length = 1) && maskedEq F r.mask r.pattern
  | .opNone => decide (F.length = 0)

/-- A `CMD_VAR` row of a named command: `FDFCFBFA0000oo00` under `FFFFFFFF0000FFFF`. -/
def cmdVarRow (mnemonic : String) (op : Byte) : Row :=
  { mnemonic := mnemonic, format := .cmdVar
    pattern := [0xFD, 0xFC, 0xFB, 0xFA, 0x00, 0x00, op, 0x00]
    mask := [0xFF, 0xFF, 0xFF, 0xFF, 0x00, 0x00, 0xFF, 0xFF]
    tail := [0x04, 0x03, 0x02, 0x01] }

/-- A `CMD_FIXED` row whose frame varies in no byte. -/
def cmdFixedRow (mnemonic : String) (frame : Bytes) : Row :=
  { mnemonic := mnemonic, format := .cmdFixed, pattern := frame
    mask := List.replicate frame.length 0xFF, tail := [] }

/-- A `CMD_FIXED` row whose `n` payload bytes vary. -/
def cmdFieldsRow (mnemonic : String) (lead : Bytes) (n : Nat) : Row :=
  { mnemonic := mnemonic, format := .cmdFixed
    pattern := lead ++ List.replicate n 0x00 ++ [0x04, 0x03, 0x02, 0x01]
    mask := List.replicate 8 0xFF ++ List.replicate n 0x00 ++ List.replicate 4 0xFF, tail := [] }

/-- The fixed command rows of the table. -/
def fixedRows : List Row :=
  [ cmdFixedRow "CFG_ENABLE" [0xFD, 0xFC, 0xFB, 0xFA, 0x04, 0x00, 0xFF, 0x00, 0x01, 0x00, 0x04, 0x03, 0x02, 0x01],
    cmdFixedRow "CFG_DISABLE" [0xFD, 0xFC, 0xFB, 0xFA, 0x02, 0x00, 0xFE, 0x00, 0x04, 0x03, 0x02, 0x01],
    cmdFixedRow "QUERY_MAC" [0xFD, 0xFC, 0xFB, 0xFA, 0x04, 0x00, 0xA5, 0x00, 0x01, 0x00, 0x04, 0x03, 0x02, 0x01],
    cmdFixedRow "BT_SET_on" [0xFD, 0xFC, 0xFB, 0xFA, 0x04, 0x00, 0xA4, 0x00, 0x01, 0x00, 0x04, 0x03, 0x02, 0x01],
    cmdFixedRow "BT_SET_off" [0xFD, 0xFC, 0xFB, 0xFA, 0x04, 0x00, 0xA4, 0x00, 0x00, 0x00, 0x04, 0x03, 0x02, 0x01],
    cmdFieldsRow "SET_BASIC" [0xFD, 0xFC, 0xFB, 0xFA, 0x07, 0x00, 0x02, 0x00] 5,
    cmdFieldsRow "SET_MOVE_SENS" [0xFD, 0xFC, 0xFB, 0xFA, 0x10, 0x00, 0x03, 0x00] 14,
    cmdFieldsRow "SET_STILL_SENS" [0xFD, 0xFC, 0xFB, 0xFA, 0x10, 0x00, 0x04, 0x00] 14 ]

/-- The variable command rows of the table, in its order. -/
def varRows : List Row :=
  [ cmdVarRow "QUERY_VERSION" 0xA0,
    cmdVarRow "QUERY_RESOLUTION" 0x11,
    cmdVarRow "SET_RESOLUTION" 0x01,
    cmdVarRow "QUERY_BASIC" 0x12,
    cmdVarRow "QUERY_MOVE_SENS" 0x13,
    cmdVarRow "QUERY_STILL_SENS" 0x14,
    cmdVarRow "CAL_START" 0x0B,
    cmdVarRow "CAL_QUERY" 0x1B,
    cmdVarRow "SET_BAUD" 0xA1,
    cmdVarRow "FACTORY_RESET" 0xA2,
    cmdVarRow "RESTART" 0xA3,
    cmdVarRow "OP_A9" 0xA9 ]

/-- The general rule of the encoder, the two receive families, the assembler's own operations. -/
def generalRows : List Row :=
  [ { mnemonic := "ENCODE", format := .cmdVar
      pattern := [0xFD, 0xFC, 0xFB, 0xFA, 0x00, 0x00, 0x00, 0x00]
      mask := [0xFF, 0xFF, 0xFF, 0xFF, 0x00, 0x00, 0x00, 0xFF], tail := [0x04, 0x03, 0x02, 0x01] },
    { mnemonic := "TELEMETRY", format := .rxVar
      pattern := [0xF4, 0xF3, 0xF2, 0xF1], mask := [0xFF, 0xFF, 0xFF, 0xFF], tail := [0xF8, 0xF7, 0xF6, 0xF5] },
    { mnemonic := "ACK", format := .rxVar
      pattern := [0xFD, 0xFC, 0xFB, 0xFA], mask := [0xFF, 0xFF, 0xFF, 0xFF], tail := [0x04, 0x03, 0x02, 0x01] },
    { mnemonic := "FEED", format := .opByte, pattern := [0x00], mask := [0x00], tail := [] },
    { mnemonic := "RESET", format := .opNone, pattern := [], mask := [], tail := [] } ]

/-- spec/opcode_table.json: 25 rows, 8 fixed command rows, 12 variable command rows, `ENCODE`, 2 receive
rows, 2 operation rows (R74). -/
def opcodeTable : List Row := fixedRows ++ varRows ++ generalRows

/-- The first row of the table that selects `F`. -/
def firstRow (F : Bytes) : Option Row := opcodeTable.find? (fun r => r.selects F)

/-- The mnemonic of an operation's row. -/
def Instr.mnemonic : Instr → String
  | .cfgEnable => "CFG_ENABLE"
  | .cfgDisable => "CFG_DISABLE"
  | .queryMac => "QUERY_MAC"
  | .btSetOn => "BT_SET_on"
  | .btSetOff => "BT_SET_off"
  | .setBasic _ _ _ _ => "SET_BASIC"
  | .setMoveSens _ => "SET_MOVE_SENS"
  | .setStillSens _ => "SET_STILL_SENS"
  | .queryVersion _ => "QUERY_VERSION"
  | .queryResolution _ => "QUERY_RESOLUTION"
  | .setResolution _ => "SET_RESOLUTION"
  | .queryBasic _ => "QUERY_BASIC"
  | .queryMoveSens _ => "QUERY_MOVE_SENS"
  | .queryStillSens _ => "QUERY_STILL_SENS"
  | .calStart _ => "CAL_START"
  | .calQuery _ => "CAL_QUERY"
  | .setBaud _ => "SET_BAUD"
  | .factoryReset _ => "FACTORY_RESET"
  | .restart _ => "RESTART"
  | .opA9 _ => "OP_A9"
  | .encode _ _ => "ENCODE"
  | .telemetry _ => "TELEMETRY"
  | .ack _ => "ACK"
  | .feed _ => "FEED"
  | .reset => "RESET"

/-! ## A word given as a number -/

/-- The `n` bytes of a number, the first in bits 7..0. -/
def bytesOf : Nat → Nat → Bytes
  | 0, _ => []
  | n + 1, w => BitVec.ofNat 8 w :: bytesOf n (w / 256)

/-- The table gives a variable row only its leading offsets: 4 bytes of header (`RX_VAR`), 8 bytes with
a length field of 0 (`CMD_VAR`). Such a lead is the word with an empty payload or body: its length
field is then 2 and its tail follows. Every other byte string is left as it is (log 14). -/
def completeLead (F : Bytes) : Bytes :=
  match F with
  | [a, b, c, d] =>
    if [a, b, c, d] = Family.telemetry.hdr then F ++ Family.telemetry.ftr
    else if [a, b, c, d] = Family.ack.hdr then F ++ Family.ack.ftr
    else F
  | [a, b, c, d, l0, l1, op, opHi] =>
    if [a, b, c, d] = Family.ack.hdr ∧ l0 = 0x00 ∧ l1 = 0x00 ∧ opHi = 0x00 then commandWord op [] else F
  | _ => F

/-- The word of the operation whose table bits are `w`: the bytes in stream order, the first in bits
7..0, a lead completed (log 14). -/
def tableWord (nbits w : Nat) : Bytes := completeLead (bytesOf (nbits / 8) w)

/-- What the decoder reads from a word given as a number (the host's question). -/
def decodeTableWord (nbits w : Nat) : Option Instr :=
  match decode (tableWord nbits w) with
  | .ok i => some i
  | .error _ => none

end Sys2Proof
end

