-- ==== Sys2Proof/Machine/State.lean ====
section
/-! DEFINITION. The state of the block as plain data (R20 to R32), what a step returns (R12), the error
classes (R180) and the reasons a step can stop. -/

namespace Sys2Proof.Machine

/-- The error classes: the six of the source's taxonomy and the two refusal reasons of the encoder that
the spec adds, "a closed enumeration of the eight names" (R180, R188). -/
inductive ErrorClass where
  | frameSyncError
  | bufferOverflow
  | shortFrame
  | incomplete
  | ackStatusError
  | reservedBytesError
  | opcodeHighByte
  | payloadTooLong
deriving DecidableEq, Repr

/-- The eight cases of `FEED b`, in the order of the table of R90. -/
inductive FeedCase where
  | start
  | huntDiscard
  | headerAccept
  | headerMismatch
  | overflow
  | append
  | hold
  | emit
deriving DecidableEq, Repr

/-- The abstract event of the overflow log, without payload (R182, D26). -/
inductive LogEvent where
  | overflow
deriving DecidableEq, Repr

/-- The result of a `FEED` step: the pair `(emit, log)` of R12. -/
structure FeedResult where
  emit : Option (Family × Bytes)
  log : Option LogEvent
deriving DecidableEq, Repr

/-- Why the encoder refuses a request. `opcodeHighByte` and `payloadTooLong` are R121 and R187;
`maxGateNotByte` is the refusal of `SET_BASIC` with `mx = 255` (R131, D29), which the spec leaves
without a name (log 11). -/
inductive EncodeRefusal where
  | opcodeHighByte
  | payloadTooLong
  | maxGateNotByte
deriving DecidableEq, Repr

/-- The result of an `ENCODE` step: `Ok(bytes)` or `Refused(reason)` (R12). -/
inductive EncodeResult where
  | ok (frame : Bytes)
  | refused (reason : EncodeRefusal)
deriving DecidableEq, Repr

/-- What the latest step returned (log 2). -/
inductive StepResult where
  /-- No result: after `RESET` ("no result", R101), at reset, after an idle step. -/
  | nothing
  /-- The pair a `FEED` step returns (R12). -/
  | fed (r : FeedResult)
  /-- The non-empty results, in order, of the bytes of a frame received as a whole (R109). -/
  | ran (rs : List FeedResult)
  /-- What an `ENCODE` step returns (R12). -/
  | encoded (r : EncodeResult)
deriving DecidableEq, Repr

/-- The cells of the buffer that hold a value, as (index, byte) pairs: indices strictly rising, no pair
for a cell that holds none (R30: "a model must treat each cell as holding no value until `FEED`
writes it"; log 5). -/
abbrev Memory := List Host.Cell

/-- An operation offered to the block (log 1): as its word, which `step` decodes (R74), or as a call of the
operation itself. A request that has no word of its own is offered as a call: an `ENCODE` that is
refused, since R187 gives it no bytes, and an operation whose word the table gives to an earlier row
(R224: any request "in any order"; log 22). -/
inductive Offer where
  | word (w : Bytes)
  | call (i : Instr)
deriving DecidableEq, Repr

/-- The state of the machine. `pos` and `buf` are the spec's whole state (R20); `cfg` is the instance's
fixed parameter (R7, R25); `inbox` and `result` are the model's own: the operations the environment
has offered and the block has not taken yet, oldest first (log 1), and what the latest step returned
(log 2). -/
structure State where
  cfg : Config
  pos : Nat
  buf : Memory
  inbox : List Offer
  result : StepResult
deriving DecidableEq, Repr

/-- Faults: a read or write of the buffer that no rule of the spec makes (R21, R51). Both are safe: the
model stops where the block, on states no run reaches, has no rule. -/
inductive Fault where
  /-- Raised by a read of a cell that holds no value: "a model that does read one has a bug and should
  `fault`" (U2; log 5). Safe. -/
  | unwrittenCell (index : Nat)
  /-- Raised by a read or write at an index of `CAP` or more, where there is no cell (R21, R51). Safe. -/
  | noSuchCell (index : Nat)
deriving DecidableEq, Repr

/-- Refusals. All are safe: the model stops where the spec gives no rule. -/
inductive Refusal where
  /-- Raised by an arm of `exec` that has no meaning yet, with the row's mnemonic. Safe. -/
  | notModelled (mnemonic : String)
  /-- Raised by `FEED` when `buf[0]` is no first header byte: "`fam(S)` is undefined when (I-b) fails,
  and a model should then refuse" (R29; log 16). Safe. -/
  | familyUndefined
  /-- Raised by `FEED` when `pos > CAP`, where no case of R90 applies (R29 (I-a); log 16). Safe. -/
  | cursorOutOfRange
  /-- Raised by `step` on a word that no row of the opcode table selects (R74; log 15). Safe. -/
  | noSuchOperation (reason : DecodeError)
deriving DecidableEq, Repr

/-- The state right after reset: `pos = 0`, no cell holds a value, no result pending (R30). The instance
has `CAP = 64`, the capacity of the spec's examples; the spec gives no number (log 4). Nothing has been
offered yet (log 1). -/
def State.reset : State where
  cfg := ⟨64, by decide⟩
  pos := 0
  buf := []
  inbox := []
  result := .nothing

end Sys2Proof.Machine
end

