-- ==== Sys2Proof/Machine/Ops.lean ====
section
/-! DEFINITION. The named operations over the buffer, the cursor and the inbox; taking an error (R191). -/

namespace Sys2Proof.Machine

/-- A value or the reason the machine stops. -/
abbrev Res (α : Type) := Host.Outcome α Fault Refusal

/-- Go on with the value, or stop for the same reason. -/
def andThen {α β : Type} (x : Res α) (f : α → Res β) : Res β :=
  match x with
  | .next a => f a
  | .fault r => .fault r
  | .refused r => .refused r

/-! ## The buffer (R21, R27) -/

/-- The value cell `i` holds, if it holds one. -/
def Memory.read : Memory → Nat → Option Byte
  | [], _ => none
  | (a, b) :: m, i => if a = i then some b else Memory.read m i

/-- `buf[i] <- v` (R11), keeping the indices strictly rising. -/
def Memory.write : Memory → Nat → Byte → Memory
  | [], i, v => [(i, v)]
  | (a, b) :: m, i, v =>
    if i < a then (i, v) :: (a, b) :: m
    else if i = a then (a, v) :: m
    else (a, b) :: Memory.write m i v

/-- The canonical form: indices strictly rising. An unlisted cell holds no value, so no listed pair
equals what an unlisted one reads as. -/
def Memory.wf : Memory → Bool
  | [] => true
  | [_] => true
  | (a, _) :: (c, d) :: m => decide (a < c) && Memory.wf ((c, d) :: m)

/-- `buf[i]` (R11): a cell at `CAP` or beyond does not exist, and a cell that holds no value is not
read (R51, U2). -/
def readCell (s : State) (i : Nat) : Res Byte :=
  if i < s.cfg.cap then
    match s.buf.read i with
    | some b => .next b
    | none => .fault (.unwrittenCell i)
  else .fault (.noSuchCell i)

/-- `buf[a..a+n)`, `MemRead(a, n)` (R10, R11). -/
def readCells (s : State) (a : Nat) : Nat → Res Bytes
  | 0 => .next []
  | n + 1 => andThen (readCell s a) fun b => andThen (readCells s (a + 1) n) fun bs => .next (b :: bs)

/-- `buf[pos] <- b; pos <- pos + 1`: the one write of the block (R21, R43, R51). -/
def storeByte (b : Byte) (s : State) : Res State :=
  if s.pos < s.cfg.cap then .next { s with buf := s.buf.write s.pos b, pos := s.pos + 1 }
  else .fault (.noSuchCell s.pos)

/-! ## Results -/

/-- `(None, None)`. -/
def silent : FeedResult := { emit := none, log := none }

/-- `(Some(f, F), None)`. -/
def emitted (f : Family) (F : Bytes) : FeedResult := { emit := some (f, F), log := none }

/-- `(None, Overflow)`. -/
def overflowed : FeedResult := { emit := none, log := some .overflow }

/-- The result of a step, kept until the next one. -/
def State.withResult (s : State) (r : StepResult) : State := { s with result := r }

/-! ## Taking an error (R191)

Nothing is saved, control goes nowhere, and there is no return operation (R192): after any error that
sets `pos <- 0` the next `FEED` is handled by the ordinary rules of the noise-hunting state. -/

/-- `pos <- 0`: the buffered bytes are dropped, `buf` is not cleared (R191, R94, R97). -/
def abandon (s : State) : State := { s with pos := 0 }

/-- What an error class changes and what the step returns. `FrameSyncError` sets `pos <- 0` (in the
noise-hunting state it is 0 already) and is silent (R181); `BufferOverflow` sets `pos <- 0` and logs
(R182); `Incomplete` leaves the append as it is and is silent (R184); the decoder's three classes and
the encoder's two do not touch the assembler (R172, R187). -/
def takeError (c : ErrorClass) (s : State) : State × FeedResult :=
  match c with
  | .frameSyncError => (abandon s, silent)
  | .bufferOverflow => (abandon s, overflowed)
  | .incomplete => (s, silent)
  | .shortFrame => (s, silent)
  | .ackStatusError => (s, silent)
  | .reservedBytesError => (s, silent)
  | .opcodeHighByte => (s, silent)
  | .payloadTooLong => (s, silent)

/-- The error class a case of `FEED` raises (R181, R182, R184); the other cases raise none. -/
def FeedCase.error : FeedCase → Option ErrorClass
  | .start => none
  | .huntDiscard => some .frameSyncError
  | .headerAccept => none
  | .headerMismatch => some .frameSyncError
  | .overflow => some .bufferOverflow
  | .append => none
  | .hold => some .incomplete
  | .emit => none

/-- The error class an encoder refusal is (R187); the refusal of R131 has none of the eight names. -/
def EncodeRefusal.error : EncodeRefusal → Option ErrorClass
  | .opcodeHighByte => some .opcodeHighByte
  | .payloadTooLong => some .payloadTooLong
  | .maxGateNotByte => none

/-! ## The inbox (R47) -/

/-- The oldest operation offered, and the state in which it has been taken. -/
def fetch (s : State) : Option (Offer × State) :=
  match s.inbox with
  | [] => none
  | o :: rest => some (o, { s with inbox := rest })

/-- The operation an offer stands for: a word is decoded (R74), a call names it. -/
def Offer.operation : Offer → Except DecodeError Instr
  | .word w => decode w
  | .call i => .ok i

/-- `s` with `o` the next to be taken. -/
def offerNext (s : State) (o : Offer) : State := { s with inbox := o :: s.inbox }

end Sys2Proof.Machine
end

