-- ==== Sys2Proof/Machine/Flags.lean ====
section
/-! DEFINITION. What the assembler computes from its state and never stores (R24): the family (R23), the
footer test (R96) and the hold predicate (R99). -/

namespace Sys2Proof.Machine

/-- `family_of(0xF4) = Telemetry`, `family_of(0xFD) = Ack`, "undefined for any other byte" (R23). -/
def familyOf (b : Byte) : Option Family :=
  if b = 0xF4 then some .telemetry
  else if b = 0xFD then some .ack
  else none

/-- `fam(S) = family_of(buf[0])`, used only when `pos >= 1` (R23); refused where it is undefined (R29). -/
def family (s : State) : Res Family :=
  andThen (readCell s 0) fun b =>
    match familyOf b with
    | some f => .next f
    | none => .refused .familyUndefined

/-- `buf[0..pos)`: the bytes of the frame in progress (R22). -/
def inProgress (s : State) : Res Bytes := readCells s 0 s.pos

/-- `FooterAt(S)`: `buf[pos-4..pos) == ftr(fam(S))` when `pos >= 8`, false otherwise; only the footer of
the frame's own family is compared (R96). -/
def footerAt (s : State) : Res Bool :=
  if s.pos < 8 then .next false
  else
    andThen (family s) fun f =>
      andThen (readCells s (s.pos - 4) 4) fun w => .next (decide (w = f.ftr))

/-- `Hold(f, F)`, the decode verdict `Incomplete`, its conjuncts in the order of R99. -/
def hold (f : Family) (F : Bytes) : Bool :=
  decide (f = .ack) && decide (10 ≤ F.length) && decide (F.length < 20)
    && decide (F[7]? = some 0x01)
    && decide (F[8]? = some 0x00) && decide (F[9]? = some 0x00)
    && decide (F[6]? = some 0xA5)

end Sys2Proof.Machine
end

