-- ==== Sys2Proof/Machine/Assembler.lean ====
section
/-! DEFINITION. The Frame Assembler: `FEED` in its eight cases (R90 to R100), the reception of a whole
frame (R109) and `RESET` (R101). -/

namespace Sys2Proof.Machine

/-- The case of `FEED b` on a state in the body class that has room: the footer test and the hold
predicate "are evaluated on the state *after* the append" (R90 cases 6 to 8). -/
def bodyCase (b : Byte) (s : State) : Res FeedCase :=
  andThen (storeByte b s) fun s' =>
    andThen (footerAt s') fun atFooter =>
      if atFooter then
        andThen (family s') fun f =>
          andThen (inProgress s') fun F => .next (if hold f F then .hold else .emit)
      else .next .append

/-- The case rule that applies to `(S, b)`, the conditions tested in the order of R90 (R190). A cursor
beyond `CAP` is in no case (R29). -/
def feedCase (b : Byte) (s : State) : Res FeedCase :=
  if s.pos = 0 then .next (if (familyOf b).isSome then .start else .huntDiscard)
  else if s.pos ≤ 3 then
    andThen (family s) fun f =>
      .next (if f.hdr[s.pos]? = some b then .headerAccept else .headerMismatch)
  else if s.pos = s.cfg.cap then .next .overflow
  else if s.cfg.cap < s.pos then .refused .cursorOutOfRange
  else bodyCase b s

/-- `buf[pos] <- b; pos <- pos + 1; return (None, None)` (R91, R93, R95). -/
def acceptByte (b : Byte) (s : State) : Res (State × FeedResult) :=
  andThen (storeByte b s) fun s' => .next (s', silent)

/-- The emit case (R98): the byte is appended, the frame is a copy of `buf[0..pos)`, `pos <- 0`. -/
def emitFrame (b : Byte) (s : State) : Res (State × FeedResult) :=
  andThen (storeByte b s) fun s' =>
    andThen (family s') fun f =>
      andThen (inProgress s') fun F => .next (abandon s', emitted f F)

/-- The hold case (R100): the byte is appended, then the error `Incomplete` is taken. -/
def holdFrame (b : Byte) (s : State) : Res (State × FeedResult) :=
  andThen (storeByte b s) fun s' => .next (takeError .incomplete s')

/-- What a case of `FEED b` does. -/
def applyCase (c : FeedCase) (b : Byte) (s : State) : Res (State × FeedResult) :=
  match c with
  | .start => acceptByte b s
  | .huntDiscard => .next (takeError .frameSyncError s)
  | .headerAccept => acceptByte b s
  | .headerMismatch => .next (takeError .frameSyncError s)
  | .overflow => .next (takeError .bufferOverflow s)
  | .append => acceptByte b s
  | .hold => holdFrame b s
  | .emit => emitFrame b s

/-- `FEED b`: exactly one case rule applies (R90). -/
def feedByte (b : Byte) (s : State) : Res (State × FeedResult) :=
  andThen (feedCase b s) fun c => applyCase c b s

/-- The index the case `c` of `FEED` stores its byte at, if it stores it: the byte goes to `buf[pos]`
(R21). -/
def FeedCase.storesAt (c : FeedCase) (s : State) : Option Nat :=
  match c with
  | .start => some s.pos
  | .huntDiscard => none
  | .headerAccept => some s.pos
  | .headerMismatch => none
  | .overflow => none
  | .append => some s.pos
  | .hold => some s.pos
  | .emit => some s.pos

/-- The index `FEED b` stores its byte at, if it stores it. -/
def feedStoresAt (b : Byte) (s : State) : Option Nat :=
  match feedCase b s with
  | .next c => c.storesAt s
  | .fault _ => none
  | .refused _ => none

/-- A result put before the later ones, if it is non-empty: not `(None, None)` (R109). -/
def recordResult (r : FeedResult) (rs : List FeedResult) : List FeedResult :=
  if r = silent then rs else r :: rs

/-- `run(S, s)`: "feeds the bytes of `s` in order starting from `S` and returns the final state and the
list of non-empty results in order" (R109). -/
def run : Bytes → State → Res (State × List FeedResult)
  | [], s => .next (s, [])
  | b :: bs, s =>
    andThen (feedByte b s) fun (s', r) =>
      andThen (run bs s') fun (s'', rs) => .next (s'', recordResult r rs)

/-- The indices a run of bytes stores at, oldest first. -/
def runStoresAt : Bytes → State → List Nat
  | [], _ => []
  | b :: bs, s =>
    (feedStoresAt b s).toList ++
      match feedByte b s with
      | .next (s', _) => runStoresAt bs s'
      | .fault _ => []
      | .refused _ => []

/-- The bytes of a frame of family `f` around a body (R60, R61, R74). -/
def frameOf (f : Family) (body : Bytes) : Bytes := f.hdr ++ body ++ f.ftr

/-- A whole frame arrives on the receive stream (R109; log 8). -/
def receiveFrame (f : Family) (body : Bytes) (s : State) : Res State :=
  andThen (run (frameOf f body) s) fun (s', rs) => .next (s'.withResult (.ran rs))

/-! ## The meanings -/

/-- `FEED b` (R90). -/
def execFeed (b : Byte) (s : State) : Res State :=
  andThen (feedByte b s) fun (s', r) => .next (s'.withResult (.fed r))

/-- `TELEMETRY`: a frame of the Telemetry family arrives (R91 to R100, R109; log 8). -/
def execTelemetry (body : Bytes) (s : State) : Res State := receiveFrame .telemetry body s

/-- `ACK`: a frame of the Ack family arrives (R91 to R100, R109; log 8). -/
def execAck (body : Bytes) (s : State) : Res State := receiveFrame .ack body s

/-- `RESET`: "`pos <- 0`; `buf` cells become unspecified; no result" (R101): no cell holds a value
(log 6). What the environment has offered is not the assembler's, and stays. -/
def execReset (s : State) : Res State := .next { s with pos := 0, buf := [], result := .nothing }

end Sys2Proof.Machine
end

