-- ==== Sys2Proof/Machine/Operands.lean ====
section
/-! DEFINITION. The request payloads the source states, from the operands of the named commands (R75). -/

namespace Sys2Proof.Machine

/-- `01 00`: the payload of `CFG_ENABLE` (R124) and `QUERY_MAC` (R127). -/
def payloadOne : Bytes := [0x01, 0x00]

/-- "Bluetooth on/off (payload `01 00`/`00 00`)" (R138). -/
def payloadBluetooth (on : Bool) : Bytes := if on then [0x01, 0x00] else [0x00, 0x00]

/-- `p = [mn, mx + 1] ++ LE16(t) ++ [lvl]`, for `mx <= 254` (R131). -/
def payloadBasic (mn mx : Byte) (t : BitVec 16) (lvl : Byte) : Bytes :=
  [mn, mx + 1] ++ le16 t.toNat ++ [lvl]

end Sys2Proof.Machine
end

