-- ==== Sys2Proof/Machine/Encoder.lean ====
section
/-! DEFINITION. The Command Encoder: `ENCODE` (R120 to R122) and one meaning per named command
(R124 to R142). "The operation reads and writes no state": only the step's result is written. -/

namespace Sys2Proof.Machine

/-- The bytes `ENCODE(op, p)` returns for an admitted request (R120). -/
def buildFrame (op : BitVec 16) (p : Bytes) : Bytes :=
  Family.ack.hdr ++ le16 (2 + p.length) ++ [op.setWidth 8, 0x00] ++ p ++ Family.ack.ftr

/-- `ENCODE op, p`: refused when `op > 0x00FF` or `len(p) > 65533` (R121; the opcode is looked at first,
log 10), otherwise `Ok` of the frame (R120). -/
def encodeRequest (op : BitVec 16) (p : Bytes) : EncodeResult :=
  if 0x00FF < op.toNat then .refused .opcodeHighByte
  else if 65533 < p.length then .refused .payloadTooLong
  else .ok (buildFrame op p)

/-- An `ENCODE` step: its result, and nothing else (R12, R120, R187). -/
def encodeStep (op : BitVec 16) (p : Bytes) (s : State) : Res State :=
  .next (s.withResult (.encoded (encodeRequest op p)))

/-! ## The meanings -/

/-- `ENCODE op, p` (R120). -/
def execEncode (op : BitVec 16) (p : Bytes) (s : State) : Res State := encodeStep op p s

/-- `CFG_ENABLE` is `ENCODE 0xFF, 01 00` (R124). -/
def execCfgEnable (s : State) : Res State := encodeStep 0xFF payloadOne s

/-- `CFG_DISABLE` is `ENCODE 0xFE, []` (R125). -/
def execCfgDisable (s : State) : Res State := encodeStep 0xFE [] s

/-- `QUERY_MAC` is `ENCODE 0xA5, 01 00` (R127). -/
def execQueryMac (s : State) : Res State := encodeStep 0xA5 payloadOne s

/-- `BT_SET on` is `ENCODE 0xA4, 01 00` (R138). -/
def execBtSetOn (s : State) : Res State := encodeStep 0xA4 (payloadBluetooth true) s

/-- `BT_SET off` is `ENCODE 0xA4, 00 00` (R138). -/
def execBtSetOff (s : State) : Res State := encodeStep 0xA4 (payloadBluetooth false) s

/-- `SET_BASIC mn, mx, t, lvl` is `ENCODE 0x02, [mn, mx+1] ++ LE16(t) ++ [lvl]`; "the spec requires
`mx <= 254` and a model refuses otherwise" (R131, D29): a refused request, as every refusal of the
encoder is (log 9, log 11). -/
def execSetBasic (mn mx : Byte) (t : BitVec 16) (lvl : Byte) (s : State) : Res State :=
  if mx.toNat ≤ 254 then encodeStep 0x02 (payloadBasic mn mx t lvl) s
  else .next (s.withResult (.encoded (.refused .maxGateNotByte)))

/-- `SET_MOVE_SENS g` is `ENCODE 0x03, g` (R133). -/
def execSetMoveSens (g : Gates) (s : State) : Res State := encodeStep 0x03 g.bytes s

/-- `SET_STILL_SENS g` is `ENCODE 0x04, g` (R135). -/
def execSetStillSens (g : Gates) (s : State) : Res State := encodeStep 0x04 g.bytes s

/-- `QUERY_VERSION p` is `ENCODE 0xA0, p` (R126). -/
def execQueryVersion (p : Bytes) (s : State) : Res State := encodeStep 0xA0 p s

/-- `QUERY_RESOLUTION p` is `ENCODE 0x11, p` (R128). -/
def execQueryResolution (p : Bytes) (s : State) : Res State := encodeStep 0x11 p s

/-- `SET_RESOLUTION p` is `ENCODE 0x01, p` (R129). -/
def execSetResolution (p : Bytes) (s : State) : Res State := encodeStep 0x01 p s

/-- `QUERY_BASIC p` is `ENCODE 0x12, p` (R130). -/
def execQueryBasic (p : Bytes) (s : State) : Res State := encodeStep 0x12 p s

/-- `QUERY_MOVE_SENS p` is `ENCODE 0x13, p` (R132). -/
def execQueryMoveSens (p : Bytes) (s : State) : Res State := encodeStep 0x13 p s

/-- `QUERY_STILL_SENS p` is `ENCODE 0x14, p` (R134). -/
def execQueryStillSens (p : Bytes) (s : State) : Res State := encodeStep 0x14 p s

/-- `CAL_START p` is `ENCODE 0x0B, p` (R136). -/
def execCalStart (p : Bytes) (s : State) : Res State := encodeStep 0x0B p s

/-- `CAL_QUERY p` is `ENCODE 0x1B, p` (R137). -/
def execCalQuery (p : Bytes) (s : State) : Res State := encodeStep 0x1B p s

/-- `SET_BAUD p` is `ENCODE 0xA1, p` (R139). -/
def execSetBaud (p : Bytes) (s : State) : Res State := encodeStep 0xA1 p s

/-- `FACTORY_RESET p` is `ENCODE 0xA2, p` (R140). -/
def execFactoryReset (p : Bytes) (s : State) : Res State := encodeStep 0xA2 p s

/-- `RESTART p` is `ENCODE 0xA3, p` (R141). -/
def execRestart (p : Bytes) (s : State) : Res State := encodeStep 0xA3 p s

/-- `OP_A9 p` is `ENCODE 0xA9, p` (R142). -/
def execOpA9 (p : Bytes) (s : State) : Res State := encodeStep 0xA9 p s

end Sys2Proof.Machine
end

