-- ==== Sys2Proof/Machine/Dispatch.lean ====
section
/-! DEFINITION. One arm per operation: one direct call of its meaning. -/

namespace Sys2Proof.Machine

def exec (i : Instr) (s : State) : Host.Outcome State Fault Refusal :=
  match i with
  | .cfgEnable => Sys2Proof.Machine.execCfgEnable s
  | .cfgDisable => Sys2Proof.Machine.execCfgDisable s
  | .queryMac => Sys2Proof.Machine.execQueryMac s
  | .btSetOn => Sys2Proof.Machine.execBtSetOn s
  | .btSetOff => Sys2Proof.Machine.execBtSetOff s
  | .setBasic mn mx t lvl => Sys2Proof.Machine.execSetBasic mn mx t lvl s
  | .setMoveSens g => Sys2Proof.Machine.execSetMoveSens g s
  | .setStillSens g => Sys2Proof.Machine.execSetStillSens g s
  | .queryVersion p => Sys2Proof.Machine.execQueryVersion p s
  | .queryResolution p => Sys2Proof.Machine.execQueryResolution p s
  | .setResolution p => Sys2Proof.Machine.execSetResolution p s
  | .queryBasic p => Sys2Proof.Machine.execQueryBasic p s
  | .queryMoveSens p => Sys2Proof.Machine.execQueryMoveSens p s
  | .queryStillSens p => Sys2Proof.Machine.execQueryStillSens p s
  | .calStart p => Sys2Proof.Machine.execCalStart p s
  | .calQuery p => Sys2Proof.Machine.execCalQuery p s
  | .setBaud p => Sys2Proof.Machine.execSetBaud p s
  | .factoryReset p => Sys2Proof.Machine.execFactoryReset p s
  | .restart p => Sys2Proof.Machine.execRestart p s
  | .opA9 p => Sys2Proof.Machine.execOpA9 p s
  | .encode op p => Sys2Proof.Machine.execEncode op p s
  | .telemetry body => Sys2Proof.Machine.execTelemetry body s
  | .ack body => Sys2Proof.Machine.execAck body s
  | .feed b => Sys2Proof.Machine.execFeed b s
  | .reset => Sys2Proof.Machine.execReset s

end Sys2Proof.Machine
end

