-- ==== Sys2Proof/Machine/Step.lean ====
section
/-! DEFINITION. One step of the machine: the oldest operation the environment has offered is taken,
decoded where it is a word, and run. -/

namespace Sys2Proof.Machine

/-- The oldest offer of the inbox is taken (R47) and its operation run. With nothing offered the step is
idle: it returns no result and changes nothing (log 3). A word that is no operation is refused by name
(log 15). -/
def step (s : State) : Host.Outcome State Fault Refusal :=
  match fetch s with
  | none => .next (s.withResult .nothing)
  | some (o, s') =>
    match o.operation with
    | .ok i => exec i s'
    | .error e => .refused (.noSuchOperation e)

/-- `s` with the operation whose table bits are `w` the next that `step` takes (log 14). -/
def State.withFetchWord (s : State) (nbits w : Nat) : State := offerNext s (.word (tableWord nbits w))

end Sys2Proof.Machine
end

