-- ==== Sys2Proof/Machine/FrameDecoder.lean ====
section
/-! DEFINITION. The Frame Decoder's reading of an emitted frame (R160 to R171): context outside the block
(R5 (1)), pure functions that no step calls. The one verdict that reaches the assembler, `Incomplete`,
is `hold` of Machine/Flags.lean. What the source leaves open here is in log 21. -/

namespace Sys2Proof.Machine

/-! ## Ack frames -/

/-- The verdicts on an Ack frame (R160, R165): `shortFrame` is the drop of R183. -/
inductive AckVerdict where
  | shortFrame
  | failure (c : ErrorClass)
  | incomplete
  | success (opcode : Byte)
deriving DecidableEq, Repr

/-- The checks of R165 in the source's order; the MAC special case is R168. -/
def ackVerdict (F : Bytes) : AckVerdict :=
  if F.length < 10 then .shortFrame
  else if F[7]? ≠ some 0x01 then .failure .ackStatusError
  else if F[8]? ≠ some 0x00 ∨ F[9]? ≠ some 0x00 then .failure .reservedBytesError
  else if F[6]? = some 0xA5 ∧ F.length < 20 then .incomplete
  else .success (F[6]?.getD 0x00)

/-- The opcode-specific response bytes of an Ack frame, "from offset 10" to the footer (R66). -/
def ackPayload (F : Bytes) : Bytes := (F.take (F.length - 4)).drop 10

/-- A reported MAC address: the sentinel means "unknown/Bluetooth off" (R168). -/
inductive MacReport where
  | unknown
  | address (bytes : Bytes)
deriving DecidableEq, Repr

/-- The six MAC bytes at offsets 10..15 of a successful MAC acknowledgment (R168). -/
def macReport (F : Bytes) : Option MacReport :=
  if ackVerdict F = .success 0xA5 then
    let m := (F.drop 10).take 6
    some (if m = [0x08, 0x05, 0x04, 0x03, 0x02, 0x01] then .unknown else .address m)
  else none

/-- The MAC report of an Ack frame marks Bluetooth enabled for every address but the sentinel (R168). -/
def MacReport.bluetoothEnabled : MacReport → Bool
  | .unknown => false
  | .address _ => true

/-- A hexadecimal digit. DESIGN CHOICE: the digits ten to fifteen are the upper-case letters `A` to `F`; the
spec says only "hex digits" (R169) and "colon-hex" (R168), and no example of it has a letter (log 21). -/
def hexDigit (n : Nat) : Char := "0123456789ABCDEF".toList.getD n '?'

/-- Two hexadecimal digits. -/
def hexByte (b : Byte) : List Char := [hexDigit (b.toNat / 16), hexDigit (b.toNat % 16)]

/-- Bytes as hexadecimal digits with a colon between two bytes. -/
def colonHex : Bytes → List Char
  | [] => []
  | [b] => hexByte b
  | b :: bs => hexByte b ++ ':' :: colonHex bs

/-- "any other 6 bytes decode to their colon-hex representation" (R168). DEDUCED: the bytes stand in frame
order, that of offset 10 first (log 21). An unknown address has no text. -/
def MacReport.text : MacReport → Option (List Char)
  | .unknown => none
  | .address m => some (colonHex m)

/-- The text of six version bytes: major `v[1]` in decimal, `v[0]` in hex, then `v[5] v[4] v[3] v[2]` in
hex (R169). The offset of the six bytes in the frame is not given. -/
def versionText : Bytes → Option (List Char)
  | [v0, v1, v2, v3, v4, v5] =>
    some (Nat.toDigits 10 v1.toNat ++ '.' :: hexByte v0 ++ '.' :: (hexByte v5 ++ hexByte v4 ++ hexByte v3 ++ hexByte v2))
  | _ => none

/-- The distance resolutions of R170. -/
inductive Resolution where
  | m020
  | m050
  | m075
deriving DecidableEq, Repr

/-- `0x03` is 0.2 m, `0x01` is 0.5 m, `0x00` is 0.75 m; "other values are not assigned" (R170). -/
def resolutionOf (b : Byte) : Option Resolution :=
  if b = 0x03 then some .m020 else if b = 0x01 then some .m050 else if b = 0x00 then some .m075 else none

/-- The byte of a resolution (R170). -/
def Resolution.toByte : Resolution → Byte
  | .m020 => 0x03
  | .m050 => 0x01
  | .m075 => 0x00

/-- The baud-rate enumeration, closed: the enumerants 1 to 8 (R170). -/
inductive BaudRate where
  | baud1
  | baud2
  | baud3
  | baud4
  | baud5
  | baud6
  | baud7
  | baud8
deriving DecidableEq, Repr

/-- The byte of a baud-rate enumerant (R170). -/
def BaudRate.toByte : BaudRate → Byte
  | .baud1 => 0x01
  | .baud2 => 0x02
  | .baud3 => 0x03
  | .baud4 => 0x04
  | .baud5 => 0x05
  | .baud6 => 0x06
  | .baud7 => 0x07
  | .baud8 => 0x08

/-- The eight enumerants, the two whose rate the source gives first. -/
def BaudRate.all : List BaudRate := [.baud1, .baud8, .baud2, .baud3, .baud4, .baud5, .baud6, .baud7]

/-- The enumerant of a byte; bytes other than 1 to 8 are none (R170). -/
def baudOf (b : Byte) : Option BaudRate := BaudRate.all.find? (fun r => decide (r.toByte = b))

/-- The rate of an enumerant: "the source gives only the two ends (1 is 9600, 8 is 460800)" (R170); the six
between are open (U13, log 21). -/
def BaudRate.rate : BaudRate → Nat
  | .baud1 => 9600
  | .baud8 => 460800
  | .baud2 => Config.baudBetween 0x02
  | .baud3 => Config.baudBetween 0x03
  | .baud4 => Config.baudBetween 0x04
  | .baud5 => Config.baudBetween 0x05
  | .baud6 => Config.baudBetween 0x06
  | .baud7 => Config.baudBetween 0x07

/-- The enumerant of a rate, the other direction (R170): an enumerant that has the rate, and none exactly where
none has it. 9600 is enumerant 1 and 460800 is enumerant 8; whether two of the six open rates are equal is as open
as they are, and the first enumerant that has the rate is answered (log 21). -/
def baudOfRate (n : Nat) : Option BaudRate := BaudRate.all.find? (fun r => decide (r.rate = n))

/-- The rate a byte stands for (R170). -/
def baudRate (b : Byte) : Option Nat := (baudOf b).map BaudRate.rate

/-- The basic configuration a query answers (R171). -/
structure BasicConfig where
  minGate : Byte
  maxGate : Byte
  timeout : Nat
  outPin : Byte
deriving DecidableEq, Repr

/-- "min gate, max gate, timeout LE16, out-pin level" (R171); the offset of the five bytes is not given. -/
def basicConfigOf : Bytes → Option BasicConfig
  | [mn, mx, tLo, tHi, lvl] => some ⟨mn, mx, readLE16 tLo tHi, lvl⟩
  | _ => none

/-! ## Telemetry frames -/

/-- The mode of a Telemetry frame (R162). -/
inductive Mode where
  | normal
  | engineering
deriving DecidableEq, Repr

/-- The fields of a Telemetry frame at the offsets of R163, each absent where the frame is too short to
hold it. The gate arrays and the light level are "explicitly absent" in Normal mode. The output-pin flag has no
settled offset (C7, U14) and the `present` flag no bit (C9): neither is reported. -/
structure TelemetryRecord where
  mode : Mode
  moving : Bool
  still : Bool
  movingDistance : Option Nat
  movingEnergy : Option Byte
  stillDistance : Option Nat
  stillEnergy : Option Byte
  moveEnergies : Option Bytes
  stillEnergies : Option Bytes
  lightRaw : Option Byte
  light : Option Byte
deriving DecidableEq, Repr

/-- `LE16` at offset `i`. -/
def fieldLE16 (F : Bytes) (i : Nat) : Option Nat :=
  match F[i]?, F[i + 1]? with
  | some lo, some hi => some (readLE16 lo hi)
  | _, _ => none

/-- The `n` bytes at offset `i`, where the frame has them all. -/
def fieldBytes (F : Bytes) (i n : Nat) : Option Bytes :=
  if i + n ≤ F.length then some ((F.drop i).take n) else none

/-- A field of Engineering mode: "in Normal mode these fields are reported as explicitly absent" (R163). -/
def engineeringOnly {α : Type} (m : Mode) (field : Option α) : Option α :=
  match m with
  | .engineering => field
  | .normal => none

/-- "`light_level: u8` (0–100, scaled)", "scaled ×100/255 for percent" (R163, R164): `raw * 100 / 255` where that
is a whole number, and otherwise one of its two neighbours. Which of the two is the one thing the rule leaves
open ("The rounding of `raw × 100 / 255` is not stated", log 21). -/
def lightPercent (raw : Byte) : Byte :=
  if raw.toNat * 100 % 255 ≠ 0 ∧ Config.lightRoundsUp raw then BitVec.ofNat 8 (raw.toNat * 100 / 255 + 1)
  else BitVec.ofNat 8 (raw.toNat * 100 / 255)

/-- "Mode = Engineering if byte[6] == 0x01, else Normal" (R162). -/
def telemetryMode (F : Bytes) : Mode := if F[6]? = some 0x01 then .engineering else .normal

/-- The fields of R163. DESIGN CHOICE: each is read at its own offset wherever the frame has the byte. The spec
does not say what a field is whose offset falls on the tail of a short frame (the `0x55`, the byte after it or the
footer, as offsets 8 to 11 of a frame of 12 bytes and 45 of one of 46 to 51): the bytes that stand there are
reported (log 21). -/
def telemetryFields (F : Bytes) : TelemetryRecord where
  mode := telemetryMode F
  moving := (F[8]?.getD 0x00).getLsbD 0
  still := (F[8]?.getD 0x00).getLsbD 1
  movingDistance := fieldLE16 F 9
  movingEnergy := F[11]?
  stillDistance := fieldLE16 F 12
  stillEnergy := F[14]?
  moveEnergies := engineeringOnly (telemetryMode F) (fieldBytes F 17 14)
  stillEnergies := engineeringOnly (telemetryMode F) (fieldBytes F 31 14)
  lightRaw := engineeringOnly (telemetryMode F) F[45]?
  light := engineeringOnly (telemetryMode F) (F[45]?.map lightPercent)

/-- The verdicts on a Telemetry frame: a record or a silent discard (R160, R161, R183). -/
inductive TelemetryVerdict where
  | shortFrame
  | discarded
  | record (r : TelemetryRecord)
deriving DecidableEq, Repr

/-- "require length ≥ 12; ... byte[7] == 0xAA and byte[length-6] == 0x55" (R161). -/
def telemetryVerdict (F : Bytes) : TelemetryVerdict :=
  if F.length < 12 then .shortFrame
  else if F[7]? = some 0xAA ∧ F[F.length - 6]? = some 0x55 then .record (telemetryFields F)
  else .discarded

/-- "moving distance if moving flag set, else still distance, else 0" (R164). -/
def TelemetryRecord.detectionDistance (r : TelemetryRecord) : Option Nat :=
  if r.moving then r.movingDistance else if r.still then r.stillDistance else some 0

end Sys2Proof.Machine
end

