-- ==== Sys2Proof/Safety.lean ====
section
/-! DEFINITION. What the claims are stated in: the classes of states (R31), the invariants of R29, the shape
of frames (R16), when a step stops. -/

namespace Sys2Proof.Machine

/-- The three classes of states, by `pos` alone (R31). -/
inductive StateClass where
  | noiseHunting
  | header
  | body
deriving DecidableEq, Repr

/-- The class of a state (R31). -/
def State.cls (s : State) : StateClass :=
  if s.pos = 0 then .noiseHunting else if s.pos ≤ 3 then .header else .body

/-- `F` ends in the footer of family `f`, at 8 bytes or more (R96). -/
abbrev EndsInFooter (f : Family) (F : Bytes) : Prop := 8 ≤ F.length ∧ F.drop (F.length - 4) = f.ftr

/-- The bytes `F` of a frame in progress belong to family `f`: its first byte selects `f` (I-b) and its
first four bytes are those of the header of `f`, as far as they are there (I-c) (R29). -/
def StartsLike (f : Family) (F : Bytes) : Prop :=
  F ≠ [] ∧ ∀ i, i < 4 → i < F.length → F[i]? = f.hdr[i]?

/-- Every footer of `f` that ended a prefix of `F` was held (I-d) (R29). -/
def FootersHeld (f : Family) (F : Bytes) : Prop :=
  ∀ k, k ≤ F.length → EndsInFooter f (F.take k) → hold f (F.take k) = true

/-- The bytes `F` are a frame in progress: none yet, or (I-b), (I-c) and (I-d) hold of them (R29). -/
def FrameInProgress (F : Bytes) : Prop := F = [] ∨ ∃ f, StartsLike f F ∧ FootersHeld f F

/-- The invariants of R29 and what keeps the buffer readable: `pos` is at most `CAP` (I-a), the memory is
in canonical form with every index below `CAP`, and the cells `buf[0..pos)` hold the bytes of a frame
in progress ((I-b), (I-c), (I-d)). -/
structure Inv (s : State) : Prop where
  posLe : s.pos ≤ s.cfg.cap
  memWf : s.buf.wf = true
  memBelow : ∀ c ∈ s.buf, c.1 < s.cfg.cap
  frame : ∃ F, inProgress s = .next F ∧ FrameInProgress F

/-- A well-formed frame of family `f` (R16). -/
def WellFormedFrame (f : Family) (W : Bytes) : Prop :=
  8 ≤ W.length ∧ W.take 4 = f.hdr ∧ W.drop (W.length - 4) = f.ftr

/-- The prefix of length `k` of `W` ends in an un-held footer: a candidate that is emitted (R106). -/
def UnheldFooterAt (f : Family) (W : Bytes) (k : Nat) : Prop :=
  k ≤ W.length ∧ EndsInFooter f (W.take k) ∧ hold f (W.take k) = false

/-- No offer of the inbox stops the machine: each stands for an operation (R74). -/
def AllOperations (s : State) : Prop := ∀ o ∈ s.inbox, ∃ i, o.operation = .ok i

/-- A safe state: the invariants hold, and what has been offered are operations. -/
def Safe (s : State) : Prop := Inv s ∧ AllOperations s

/-- Two states no operation can tell apart: the same instance, cursor and inbox, and the same bytes
`buf[0..pos)`. Cells at `pos` and beyond (R21), and the result of an earlier step (R24), do not count. -/
def Agree (s t : State) : Prop :=
  s.cfg = t.cfg ∧ s.pos = t.pos ∧ s.inbox = t.inbox ∧ ∀ i, i < s.pos → s.buf.read i = t.buf.read i

/-- The bytes of the frame in progress can be read and its family is defined: what R90 and R104 ask of a
state (`0 <= pos <= CAP`, and `buf[0]` a first header byte when `pos >= 1`) in a model whose unwritten
cells hold no value (log 5). `F` is `buf[0..pos)`. -/
structure Readable (s : State) (F : Bytes) : Prop where
  posLe : s.pos ≤ s.cfg.cap
  bytes : inProgress s = .next F
  fam : s.pos = 0 ∨ ∃ f, family s = .next f

/-- The conditions of the table of R90, on a state whose frame in progress is `F`. -/
def CaseApplies (s : State) (b : Byte) (F : Bytes) : FeedCase → Prop
  | .start => s.pos = 0 ∧ (b = 0xF4 ∨ b = 0xFD)
  | .huntDiscard => s.pos = 0 ∧ b ≠ 0xF4 ∧ b ≠ 0xFD
  | .headerAccept => 1 ≤ s.pos ∧ s.pos ≤ 3 ∧ ∃ f, family s = .next f ∧ f.hdr[s.pos]? = some b
  | .headerMismatch => 1 ≤ s.pos ∧ s.pos ≤ 3 ∧ ∃ f, family s = .next f ∧ f.hdr[s.pos]? ≠ some b
  | .overflow => 4 ≤ s.pos ∧ s.pos = s.cfg.cap
  | .append => 4 ≤ s.pos ∧ s.pos < s.cfg.cap ∧ ∃ f, family s = .next f ∧ ¬ EndsInFooter f (F ++ [b])
  | .hold =>
    4 ≤ s.pos ∧ s.pos < s.cfg.cap ∧
      ∃ f, family s = .next f ∧ EndsInFooter f (F ++ [b]) ∧ hold f (F ++ [b]) = true
  | .emit =>
    4 ≤ s.pos ∧ s.pos < s.cfg.cap ∧
      ∃ f, family s = .next f ∧ EndsInFooter f (F ++ [b]) ∧ hold f (F ++ [b]) = false

/-- The transitions between the classes of states, by case (R102). -/
def CaseMoves : FeedCase → StateClass → StateClass → Prop
  | .start, c, c' => c = .noiseHunting ∧ c' = .header
  | .huntDiscard, c, c' => c = .noiseHunting ∧ c' = .noiseHunting
  | .headerAccept, c, c' => c = .header ∧ (c' = .header ∨ c' = .body)
  | .headerMismatch, c, c' => c = .header ∧ c' = .noiseHunting
  | .overflow, c, c' => c = .body ∧ c' = .noiseHunting
  | .append, c, c' => c = .body ∧ c' = .body
  | .hold, c, c' => c = .body ∧ c' = .body
  | .emit, c, c' => c = .body ∧ c' = .noiseHunting

/-! ## The results of a run (R109) -/

/-- `s` with the bytes `bs` offered next, each as its `FEED` word. -/
def offerBytes (bs : Bytes) (s : State) : State := { s with inbox := bs.map (fun b => Offer.word [b]) ++ s.inbox }

/-- The results of a step put before those of the steps after it: a silent `FEED` and a step without a `FEED` add
none (R109). -/
def StepResult.record : StepResult → List FeedResult → List FeedResult
  | .nothing, rs => rs
  | .fed r, rs => recordResult r rs
  | .ran qs, rs => qs ++ rs
  | .encoded _, rs => rs

/-- The non-empty results of the assembler in the next `n` steps, in order, up to a step that stops. -/
def stepResults : Nat → State → List FeedResult
  | 0, _ => []
  | n + 1, s =>
    match step s with
    | .next t => t.result.record (stepResults n t)
    | .fault _ => []
    | .refused _ => []

/-! ## The assembler over a list

"A model may ... use a list of length `pos` instead of an array" (D10): the assembler as a pure function
of the capacity, the bytes in progress and the next byte. -/

/-- `FEED b` with the bytes in progress as a list (40_assembler.md section 6). -/
def listFeed (cap : Nat) (F : Bytes) (b : Byte) : Bytes × FeedResult :=
  match F.head? with
  | none => if (familyOf b).isSome then ([b], silent) else ([], silent)
  | some b0 =>
    match familyOf b0 with
    | none => ([], silent)
    | some f =>
      if F.length ≤ 3 then
        if f.hdr[F.length]? = some b then (F ++ [b], silent) else ([], silent)
      else if F.length = cap then ([], overflowed)
      else if EndsInFooter f (F ++ [b]) then
        if hold f (F ++ [b]) then (F ++ [b], silent) else ([], emitted f (F ++ [b]))
      else (F ++ [b], silent)

/-- `run` with the bytes in progress as a list (R109). -/
def listRun (cap : Nat) : Bytes → Bytes → Bytes × List FeedResult
  | F, [] => (F, [])
  | F, b :: bs =>
    let one := listFeed cap F b
    let rest := listRun cap one.1 bs
    (rest.1, recordResult one.2 rest.2)

end Sys2Proof.Machine

namespace Sys2Proof

/-- The receive row of a family: `TELEMETRY` or `ACK` (R74). -/
def receiveRow : Family → Bytes → Instr
  | .telemetry, body => .telemetry body
  | .ack, body => .ack body

/-- The operations of the encoder: every command row and `ENCODE` (R2, R14); the others are the
assembler's. -/
def Instr.isEncoder : Instr → Bool
  | .telemetry _ => false
  | .ack _ => false
  | .feed _ => false
  | .reset => false
  | .cfgEnable => true
  | .cfgDisable => true
  | .queryMac => true
  | .btSetOn => true
  | .btSetOff => true
  | .setBasic _ _ _ _ => true
  | .setMoveSens _ => true
  | .setStillSens _ => true
  | .queryVersion _ => true
  | .queryResolution _ => true
  | .setResolution _ => true
  | .queryBasic _ => true
  | .queryMoveSens _ => true
  | .queryStillSens _ => true
  | .calStart _ => true
  | .calQuery _ => true
  | .setBaud _ => true
  | .factoryReset _ => true
  | .restart _ => true
  | .opA9 _ => true
  | .encode _ _ => true

end Sys2Proof
end

