-- ==== Sys2Proof/Certificates/Slice0/Obligations.lean ====
section
/-! DEFINITION. The statements for the provers. Each docstring names the rule of spec/ it formalises; where
a clause rests on a choice of the model or on an inference the spec marks as its own, it says so. A step returns its result (R12); the statements read it in the field `result`, where the model keeps it (log 2). -/

open Sys2Proof Sys2Proof.Machine

/-! ## Reset, step, decode -/

/-- R30: after reset `pos` is 0, every cell holds no value, the family is undefined, no output is pending,
and the assembler is in the noise-hunting state. That a cell holds no value is the spec's own choice D10 (DEDUCED, log 5);
that a pending output stands in the field `result`, and is `nothing` at reset, is the model's choice (log 2). -/
def Obligations.ResetStateHoldsTheStatedValues : Prop :=
  State.reset.pos = 0 ∧ (∀ i, State.reset.buf.read i = none) ∧ (∀ f, family State.reset ≠ .next f) ∧
    State.reset.result = .nothing ∧ State.reset.cls = .noiseHunting

/-- The state after reset meets the invariants of R29 (a premise of statements below). -/
def Obligations.ResetMeetsTheInvariants : Prop := Inv State.reset

/-- A step takes the oldest operation offered and runs it (the model's own inbox, log 1). Offered as a word, it is
the operation the word decodes to (R74): step is exec of it in the state with the word taken. Offered as a call,
which is how a request without a word of its own is made (log 22), it is the operation called. A word of no
operation is refused by name (log 15), and a step with nothing offered is idle (log 3). -/
def Obligations.StepRunsTheDecodedOperation : Prop :=
  (∀ (s : State) (w : Bytes) (rest : List Offer) (i : Instr),
      s.inbox = .word w :: rest → decode w = .ok i → step s = exec i { s with inbox := rest }) ∧
    (∀ (s : State) (i : Instr) (rest : List Offer), s.inbox = .call i :: rest → step s = exec i { s with inbox := rest }) ∧
    (∀ (s : State) (w : Bytes) (rest : List Offer) (e : DecodeError),
      s.inbox = .word w :: rest → decode w = .error e → step s = .refused (.noSuchOperation e)) ∧
    (∀ s : State, s.inbox = [] → step s = .next { s with result := .nothing })

/-- Words written out from the rows of the opcode table decode to their operations (R74). -/
def Obligations.SampleWordsDecodeToTheirOperations : Prop :=
  decode [] = .ok .reset ∧ decode [0xF4] = .ok (.feed 0xF4) ∧
    decode [0xFD, 0xFC, 0xFB, 0xFA, 0x04, 0x00, 0xFF, 0x00, 0x01, 0x00, 0x04, 0x03, 0x02, 0x01] = .ok .cfgEnable ∧
    decode [0xFD, 0xFC, 0xFB, 0xFA, 0x07, 0x00, 0x02, 0x00, 0x01, 0x0D, 0x05, 0x00, 0x00, 0x04, 0x03, 0x02, 0x01] =
      .ok (.setBasic 1 12 5 0) ∧
    decode [0xFD, 0xFC, 0xFB, 0xFA, 0x03, 0x00, 0xA1, 0x00, 0x05, 0x04, 0x03, 0x02, 0x01] = .ok (.setBaud [0x05]) ∧
    decode [0xF4, 0xF3, 0xF2, 0xF1, 0xAA, 0xF8, 0xF7, 0xF6, 0xF5] = .ok (.telemetry [0xAA]) ∧
    decode [0xFD, 0xFC, 0xFB, 0xFA, 0x04, 0x00, 0xFF, 0x01, 0x00, 0x00, 0x04, 0x03, 0x02, 0x01] =
      .ok (.ack [0x04, 0x00, 0xFF, 0x01, 0x00, 0x00])

/-- Decode and encode agree for every operation: the word of a well-formed operation decodes to it, with
every operand at every value its encoding admits. Shut out are only the operations whose word the table
gives to an earlier row (R74), by `Instr.ownsWord`; `NamedCommandIsEncode` says that an `ENCODE` so shut
out runs alike under its name. -/
def Obligations.DecodeOfEncodeIsTheOperation : Prop :=
  ∀ i : Instr, i.wellFormed = true → i.ownsWord = true → decode (encode i) = .ok i

/-- The other direction: a word that decodes to an operation is that operation's word, and the operation owns it,
so no two words decode to one operation. The operation is well-formed, but for the one kind of word whose row gives a
field a value the spec refuses (`SET_BASIC` with `mx = 255`, R131; log 12). -/
def Obligations.DecodedOperationEncodesBack : Prop :=
  ∀ (w : Bytes) (i : Instr), decode w = .ok i →
    encode i = w ∧ i.ownsWord = true ∧ (i.wellFormed = true ∨ ∃ mn t lvl, i = .setBasic mn 255 t lvl)

/-- R74: the decoder takes the first row of the opcode table that selects the word, and refuses exactly the
words no row selects. -/
def Obligations.DecoderTakesTheFirstSelectingRow : Prop :=
  ∀ w : Bytes,
    match firstRow w, decode w with
    | none, .error _ => True
    | none, .ok _ => False
    | some _, .error _ => False
    | some r, .ok i => i.mnemonic = r.mnemonic

/-! ## `FEED`, case by case -/

/-- R90: on every state with `pos <= CAP` whose frame in progress can be read, exactly one row of the table
of cases applies, and it is the case the assembler takes. That unwritten cells hold no value, so that the premise
asks the cells below `pos` to hold one, is the model's reading (log 5). That the overflow case is `pos == CAP` before
the byte is stored, and that `Hold` is looked at inside the step, are the spec's own choices D5 and D6 (log 17). -/
def Obligations.ExactlyOneFeedCaseApplies : Prop :=
  ∀ (s : State) (b : Byte) (F : Bytes), Readable s F →
    ∃ c, CaseApplies s b F c ∧ feedCase b s = .next c ∧ ∀ c', CaseApplies s b F c' → c' = c

/-- R91: at `pos == 0` a first header byte is stored in `buf[0]`, fixes the family, and `pos` is 1. That
the byte is stored is the spec's own choice D23 (log 17). -/
def Obligations.StartStoresTheFirstHeaderByte : Prop :=
  ∀ (s : State) (b : Byte), s.pos = 0 → b = 0xF4 ∨ b = 0xFD →
    ∃ t, exec (.feed b) s = .next t ∧ t.pos = 1 ∧ t.buf.read 0 = some b ∧
      (∀ a, a ≠ 0 → t.buf.read a = s.buf.read a) ∧
      family t = .next (if b = 0xF4 then .telemetry else .ack) ∧
      t.result = .fed { emit := none, log := none } ∧ t.cfg = s.cfg ∧ t.inbox = s.inbox

/-- R92: at `pos == 0` any other byte leaves the state unchanged, silently, and so does any number of such
bytes in a row; the class is `FrameSyncError`. -/
def Obligations.HuntDiscardLeavesTheStateUnchanged : Prop :=
  (∀ (s : State) (b : Byte), s.pos = 0 → b ≠ 0xF4 → b ≠ 0xFD →
      exec (.feed b) s = .next { s with result := .fed { emit := none, log := none } } ∧
        ∃ c, feedCase b s = .next c ∧ c.error = some .frameSyncError) ∧
    ∀ (s : State) (bs : Bytes), s.pos = 0 → (∀ b ∈ bs, b ≠ 0xF4 ∧ b ≠ 0xFD) → run bs s = .next (s, [])

/-- R93: in the header state the expected byte is stored at `buf[pos]` and `pos` is one more; the expected
bytes are `F3 F2 F1` and `FC FB FA`; after the accept at `pos = 3`, `buf[0..4)` is the header. That an
accepted header byte is stored is the spec's own choice D23 (log 17). -/
def Obligations.HeaderAcceptStoresTheExpectedByte : Prop :=
  (∀ (s : State) (b : Byte) (f : Family), 1 ≤ s.pos → s.pos ≤ 3 → family s = .next f →
      b = (match f with
        | .telemetry => if s.pos = 1 then 0xF3 else if s.pos = 2 then 0xF2 else 0xF1
        | .ack => if s.pos = 1 then 0xFC else if s.pos = 2 then 0xFB else 0xFA) →
      ∃ t, exec (.feed b) s = .next t ∧ t.pos = s.pos + 1 ∧ t.buf.read s.pos = some b ∧
        (∀ a, a ≠ s.pos → t.buf.read a = s.buf.read a) ∧
        t.result = .fed { emit := none, log := none } ∧ t.cfg = s.cfg ∧ t.inbox = s.inbox ∧
        (Inv s → s.pos = 3 → inProgress t = .next f.hdr))

/-- R94: in the header state any other byte sets `pos` to 0, silently, and nothing else: `buf` is not
written. A byte that is itself a first header byte is such a byte: it is discarded too. -/
def Obligations.HeaderMismatchResynchronises : Prop :=
  ∀ (s : State) (b : Byte) (f : Family), 1 ≤ s.pos → s.pos ≤ 3 → family s = .next f →
    (f.hdr[s.pos]? ≠ some b ∨ b = 0xF4 ∨ b = 0xFD) →
    exec (.feed b) s = .next { s with pos := 0, result := .fed { emit := none, log := none } } ∧
      ∃ c, feedCase b s = .next c ∧ c.error = some .frameSyncError

/-- R95: in the body state with room, a byte that completes no footer is stored at `buf[pos]`, `pos` is one
more, and the step is silent; every byte value is accepted. That only the own family's footer counts, and that it is
looked for after the append, are the spec's own choices D2 and D3 (log 17). -/
def Obligations.AppendStoresTheByte : Prop :=
  ∀ (s : State) (b : Byte) (F : Bytes) (f : Family), 4 ≤ s.pos → s.pos < s.cfg.cap →
    inProgress s = .next F → family s = .next f → ¬ EndsInFooter f (F ++ [b]) →
    ∃ t, exec (.feed b) s = .next t ∧ t.pos = s.pos + 1 ∧ t.buf.read s.pos = some b ∧
      (∀ a, a ≠ s.pos → t.buf.read a = s.buf.read a) ∧ inProgress t = .next (F ++ [b]) ∧
      t.result = .fed { emit := none, log := none } ∧ t.cfg = s.cfg ∧ t.inbox = s.inbox

/-- R96: the footer test compares the last four buffered bytes, in order, with the footer of the frame's
own family, and is false below 8 bytes; the other family's footer is ordinary data. That only the own family's
footer counts, and that the test reads the bytes after the append, are the spec's own choices D2 and D3 (log 17). -/
def Obligations.FooterTestComparesTheOwnFooter : Prop :=
  (∀ (s : State) (F : Bytes) (f : Family), inProgress s = .next F → family s = .next f → 8 ≤ s.pos →
      footerAt s = .next (decide
        (F[s.pos - 4]? = f.ftr[0]? ∧ F[s.pos - 3]? = f.ftr[1]? ∧ F[s.pos - 2]? = f.ftr[2]? ∧ F[s.pos - 1]? = f.ftr[3]?))) ∧
    (∀ s : State, s.pos < 8 → footerAt s = .next false) ∧
    (∀ (s : State) (F : Bytes) (f g : Family), inProgress s = .next F → family s = .next f → f ≠ g →
      EndsInFooter g F → footerAt s = .next false)

/-- R97 (its step): a byte that arrives at `pos == CAP` sets `pos` to 0 and logs the overflow; the byte is
not stored and nothing else changes. That the overflowing byte is neither stored nor examined again, so that `pos`
is 0 after it even where it is `F4` or `FD`, is the spec's own choice D5 (log 17). -/
def Obligations.OverflowDropsTheFrameAndLogs : Prop :=
  ∀ (s : State) (b : Byte), s.pos = s.cfg.cap →
    exec (.feed b) s = .next { s with pos := 0, result := .fed { emit := none, log := some .overflow } }

/-- R182: `BufferOverflow` is raised exactly when `pos == CAP`, and its result is `(None, Overflow)`. That the
test is `pos == CAP` before the write, and that the byte is dropped, are the spec's own choice D5 (log 17). The states
are those whose frame in progress can be read (unwritten cells hold no value: the model's reading, log 5). -/
def Obligations.OverflowIsRaisedExactlyAtCapacity : Prop :=
  ∀ (s : State) (b : Byte) (F : Bytes), Readable s F →
    ∃ t r, exec (.feed b) s = .next t ∧ t.result = .fed r ∧
      (r.log = some .overflow ↔ s.pos = s.cfg.cap) ∧
      (feedCase b s = .next .overflow ↔ s.pos = s.cfg.cap) ∧
      (s.pos = s.cfg.cap → t.pos = 0 ∧ t.buf = s.buf ∧ r = { emit := none, log := some .overflow })

/-- R98: a byte that completes a footer whose candidate is not held emits the whole buffer with its family
and sets `pos` to 0; the emitted frame has 8 to `CAP` bytes, its 4 header bytes (on a state that meets the invariants) and
its 4 footer bytes among them. The spec's own choices in it (log 17): the own family's footer alone (D2), looked for after
the append (D3), the hold predicate and its place (D6, D7, D8), a copy of the buffer as the frame (D9), and no minimum
length but 8 (D24). -/
def Obligations.EmitReturnsTheWholeFrame : Prop :=
  ∀ (s : State) (b : Byte) (F : Bytes) (f : Family), 4 ≤ s.pos → s.pos < s.cfg.cap →
    inProgress s = .next F → family s = .next f → EndsInFooter f (F ++ [b]) → hold f (F ++ [b]) = false →
    ∃ t, exec (.feed b) s = .next t ∧ t.pos = 0 ∧ t.buf.read s.pos = some b ∧
      (∀ a, a ≠ s.pos → t.buf.read a = s.buf.read a) ∧
      t.result = .fed { emit := some (f, F ++ [b]), log := none } ∧
      (F ++ [b]).length = s.pos + 1 ∧ 8 ≤ s.pos + 1 ∧ s.pos + 1 ≤ s.cfg.cap ∧ (Inv s → (F ++ [b]).take 4 = f.hdr) ∧
      (F ++ [b]).drop (s.pos + 1 - 4) = f.ftr ∧ t.cfg = s.cfg ∧ t.inbox = s.inbox

/-- R99: the hold predicate, its conjuncts as the rule lists them. That the status byte is the one at offset 7, and
that a candidate failing the status or reserved test is not held, are the spec's own choices D7 and D8 (log 17). -/
def Obligations.HoldIsTheStatedPredicate : Prop :=
  ∀ (f : Family) (F : Bytes),
    hold f F = true ↔
      f = .ack ∧ 10 ≤ F.length ∧ F.length < 20 ∧ F[7]? = some 0x01 ∧ F[8]? = some 0x00 ∧ F[9]? = some 0x00 ∧
        F[6]? = some 0xA5

/-- R100: a byte that completes a footer whose candidate is held is stored as in the append case, `pos` is one
more, nothing is emitted; the class is `Incomplete`. The spec's own choices in it (log 17): the footer test (D2, D3), that
the step looks at the hold predicate itself (D6), and what that predicate is (D7, D8). -/
def Obligations.HoldKeepsAccumulating : Prop :=
  ∀ (s : State) (b : Byte) (F : Bytes) (f : Family), 4 ≤ s.pos → s.pos < s.cfg.cap →
    inProgress s = .next F → family s = .next f → EndsInFooter f (F ++ [b]) → hold f (F ++ [b]) = true →
    (∃ t, exec (.feed b) s = .next t ∧ t.pos = s.pos + 1 ∧ t.buf.read s.pos = some b ∧
      (∀ a, a ≠ s.pos → t.buf.read a = s.buf.read a) ∧ inProgress t = .next (F ++ [b]) ∧
      t.result = .fed { emit := none, log := none } ∧ t.cfg = s.cfg ∧ t.inbox = s.inbox) ∧
      ∃ c, feedCase b s = .next c ∧ c.error = some .incomplete

/-- R101: `RESET` gives the state of R30 for the same instance, without a result. That no cell holds a value after
it, where the rule calls the cells unspecified, is the model's choice (log 6), and so is that what the environment
has offered stays (the model's own inbox, log 1). -/
def Obligations.ResetOperationRestoresTheResetState : Prop :=
  ∀ s : State, ∃ t, exec .reset s = .next t ∧ t.pos = 0 ∧ (∀ i, t.buf.read i = none) ∧ t.result = .nothing ∧
    t = { State.reset with cfg := s.cfg, inbox := s.inbox }

/-- R102 and R22: the transitions between the classes of states are exactly the listed ones, by case; `pos`
goes to `pos + 1` or 0 or, noise-hunting, stays; and `pos = 1` is reached only from `pos = 0`. The states are those
whose frame in progress can be read (unwritten cells hold no value: the model's reading, log 5). That an overflow ends
at `pos = 0`, whatever the byte, is the spec's own choice D5 (log 17). -/
def Obligations.FeedMovesBetweenClassesAsListed : Prop :=
  ∀ (s : State) (b : Byte) (F : Bytes), Readable s F →
    ∃ c t, feedCase b s = .next c ∧ exec (.feed b) s = .next t ∧ CaseMoves c s.cls t.cls ∧
      (t.pos = s.pos + 1 ∨ t.pos = 0) ∧ (t.pos = 1 → s.pos = 0)

/-- R104: `FEED` completes on every state with `pos <= CAP` whose frame in progress can be read, for every
byte. That unwritten cells hold no value, so that the premise asks the cells below `pos` to hold one, is the
model's reading (log 5). -/
def Obligations.FeedIsTotal : Prop :=
  ∀ (s : State) (b : Byte) (F : Bytes), Readable s F → ∃ t r, exec (.feed b) s = .next t ∧ t.result = .fed r

/-- R190: a step never both emits and logs, and at `pos == CAP` it emits nothing, whatever the byte (the
overflow test stands before the write by the spec's own choice D5, log 17). -/
def Obligations.AStepNeverEmitsAndLogs : Prop :=
  ∀ (s t : State) (b : Byte) (r : FeedResult), exec (.feed b) s = .next t → t.result = .fed r →
    (r.emit = none ∨ r.log = none) ∧ (s.pos = s.cfg.cap → r.emit = none)

/-- The frame of `FEED` (R21, R43): only the cell `feedStoresAt` names can change, it is `buf[pos]`, it exists,
and it receives the input byte; the instance and what has been offered do not change. -/
def Obligations.FeedWritesAtMostTheCursorCell : Prop :=
  ∀ (s t : State) (b : Byte), exec (.feed b) s = .next t →
    t.cfg = s.cfg ∧ t.inbox = s.inbox ∧
      (∀ a, feedStoresAt b s ≠ some a → t.buf.read a = s.buf.read a) ∧
      (∀ a, feedStoresAt b s = some a → a = s.pos ∧ a < s.cfg.cap ∧ t.buf.read a = some b)

/-! ## Whole frames and streams -/

/-- The frame of `TELEMETRY` and `ACK` (log 8): only the cells `runStoresAt` names can change, every one of them
exists, and the instance and what has been offered do not change. -/
def Obligations.ReceptionWritesOnlyItsCells : Prop :=
  ∀ (s t : State) (f : Family) (body : Bytes),
    exec (receiveRow f body) s = .next t →
    t.cfg = s.cfg ∧ t.inbox = s.inbox ∧
      (∀ a, a ∉ runStoresAt (frameOf f body) s → t.buf.read a = s.buf.read a) ∧
      ∀ a ∈ runStoresAt (frameOf f body) s, a < s.cfg.cap

/-- `TELEMETRY` and `ACK`, the one-step reception of a frame (the model's reading of the rows, log 8), complete from
every state that meets the invariants: the bytes of the frame run through, the result is the list of their non-empty
results that this run gives (R109), nothing else differs from the state the run ends in, and the invariants hold
there. -/
def Obligations.ReceptionCompletes : Prop :=
  ∀ (s : State) (f : Family) (body : Bytes), Inv s →
    ∃ u rs, run (frameOf f body) s = .next (u, rs) ∧
      exec (receiveRow f body) s = .next { u with result := .ran rs } ∧ Inv { u with result := .ran rs }

/-- The model's reading of the receive rows (log 8, R109): the one-step reception of a frame ends in the
assembler state that feeding its bytes one machine step at a time ends in, and its result is the list of the
non-empty results of those steps, in order. -/
def Obligations.ReceptionIsItsBytesFedOneByOne : Prop :=
  ∀ (s t : State) (f : Family) (body : Bytes),
    exec (receiveRow f body) s = .next t →
    ∃ u : State,
      Host.Core.run Sys2Proof.core (frameOf f body).length (offerBytes (frameOf f body) s) = .next u ∧
      u.cfg = t.cfg ∧ u.pos = t.pos ∧ u.buf = t.buf ∧ u.inbox = t.inbox ∧
      t.result = .ran (stepResults (frameOf f body).length (offerBytes (frameOf f body) s))

/-- The assembler refines the assembler over a list (D10, 40_assembler.md section 6): on a state that meets the
invariants, with `F` in progress, `FEED b` gives the result and the bytes in progress of `listFeed`. -/
def Obligations.AssemblerRefinesTheListAssembler : Prop :=
  ∀ (s : State) (b : Byte) (F : Bytes), Inv s → inProgress s = .next F →
    ∃ t, exec (.feed b) s = .next t ∧ inProgress t = .next (listFeed s.cfg.cap F b).1 ∧
      t.result = .fed (listFeed s.cfg.cap F b).2 ∧ Inv t

/-- R105 (an inference of the spec): the shape of every emitted frame, from every state that meets the
invariants. -/
def Obligations.EmittedFrameIsWellFormed : Prop :=
  ∀ (s t : State) (b : Byte) (f : Family) (F : Bytes) (log : Option LogEvent), Inv s →
    exec (.feed b) s = .next t → t.result = .fed { emit := some (f, F), log := log } →
    8 ≤ F.length ∧ F.length ≤ s.cfg.cap ∧ F.take 4 = f.hdr ∧ F.drop (F.length - 4) = f.ftr ∧ hold f F = false ∧
      ∀ k, 8 ≤ k → k < F.length → (F.take k).drop (k - 4) = f.ftr → hold f (F.take k) = true

/-- R106 (an inference of the spec), with `k*` the least length of a prefix that ends in an un-held footer: from
`pos = 0`, a well-formed frame of at most `CAP` bytes is emitted once, at length `k*`; if there is none, nothing is
emitted and the run ends at `pos = len(W)`. -/
def Obligations.WellFormedFrameIsAccepted : Prop :=
  ∀ (s : State) (f : Family) (W : Bytes), s.pos = 0 → WellFormedFrame f W → W.length ≤ s.cfg.cap →
    (∀ k, UnheldFooterAt f W k → (∀ j, j < k → ¬ UnheldFooterAt f W j) →
      ∃ t, run (W.take k) s = .next (t, [{ emit := some (f, W.take k), log := none }]) ∧ t.pos = 0) ∧
    ((∀ k, ¬ UnheldFooterAt f W k) →
      ∃ t, run W s = .next (t, []) ∧ t.pos = W.length ∧ inProgress t = .next W)

/-- The result of `TELEMETRY` and `ACK` (R106, an inference of the spec): from `pos = 0`, a frame of at most `CAP`
bytes without an earlier un-held footer, and not held itself, is emitted whole, once. -/
def Obligations.WholeFrameIsEmittedOnce : Prop :=
  ∀ (s : State) (f : Family) (body : Bytes), s.pos = 0 → (frameOf f body).length ≤ s.cfg.cap →
    (∀ k, UnheldFooterAt f (frameOf f body) k ↔ k = (frameOf f body).length) →
    ∃ t, exec (receiveRow f body) s = .next t ∧ t.pos = 0 ∧
      t.result = .ran [{ emit := some (f, frameOf f body), log := none }]

/-- R107 (an inference of the spec): noise made only of bytes other than `F4` and `FD`, then such a frame, yields
exactly one result, the frame. -/
def Obligations.NoiseBeforeAFrameIsHarmless : Prop :=
  ∀ (s : State) (f : Family) (noise W : Bytes), s.pos = 0 → (∀ b ∈ noise, b ≠ 0xF4 ∧ b ≠ 0xFD) →
    WellFormedFrame f W → W.length ≤ s.cfg.cap → (∀ k, UnheldFooterAt f W k ↔ k = W.length) →
    ∃ t, run (noise ++ W) s = .next (t, [{ emit := some (f, W), log := none }]) ∧ t.pos = 0

/-- R213: a frame whose first byte arrives in the header state loses its header, silently: after its four header
bytes the assembler is back in the noise-hunting state, having returned nothing. -/
def Obligations.FalseStartLosesTheNextHeader : Prop :=
  ∀ (s : State) (f g : Family), 1 ≤ s.pos → s.pos ≤ 3 → family s = .next f →
    ∃ t, run g.hdr s = .next (t, []) ∧ t.pos = 0

/-- A frame longer than `CAP` is never emitted (R97): with no un-held footer in its first `CAP` bytes, the byte after
them causes the overflow, the one result, and the assembler hunts again. That the step ends at `pos = 0` even where
that byte is `F4` or `FD` is the spec's own choice D5 (log 17). -/
def Obligations.OverlongFrameOverflows : Prop :=
  ∀ (s : State) (f : Family) (W : Bytes), s.pos = 0 → W.take 4 = f.hdr → s.cfg.cap < W.length →
    (∀ k, k ≤ s.cfg.cap → ¬ UnheldFooterAt f W k) →
    ∃ t, run (W.take (s.cfg.cap + 1)) s = .next (t, [{ emit := none, log := some .overflow }]) ∧ t.pos = 0

/-- Why the hold rule is there (R168, R99): the MAC acknowledgment with any six MAC bytes, the sentinel that contains
the footer among them, is emitted whole, once, wherever `CAP >= 20`. That it is received in one step, with the list
of its results, is the model's reading of the row (log 8); that its status byte is at offset 7 is the spec's own
choice D7 (log 17). -/
def Obligations.MacAcknowledgmentIsEmittedWhole : Prop :=
  ∀ (s : State) (m : Bytes), s.pos = 0 → 20 ≤ s.cfg.cap → m.length = 6 →
    ∃ t, exec (.ack ([0x0A, 0x00, 0xA5, 0x01, 0x00, 0x00] ++ m)) s = .next t ∧ t.pos = 0 ∧
      t.result = .ran [{ emit := some (.ack, [0xFD, 0xFC, 0xFB, 0xFA, 0x0A, 0x00, 0xA5, 0x01, 0x00, 0x00] ++ m ++
        [0x04, 0x03, 0x02, 0x01]), log := none }]

/-! ## The encoder -/

/-- R120: an admitted request returns the frame of header, length, opcode with high byte `0x00`, payload and footer,
and changes nothing. -/
def Obligations.EncodeReturnsTheFrame : Prop :=
  ∀ (s : State) (op : BitVec 16) (p : Bytes), op.toNat ≤ 0x00FF → p.length ≤ 65533 →
    exec (.encode op p) s = .next { s with result := .encoded (.ok
      ([0xFD, 0xFC, 0xFB, 0xFA, BitVec.ofNat 8 ((2 + p.length) % 256), BitVec.ofNat 8 ((2 + p.length) / 256),
        BitVec.ofNat 8 op.toNat, 0x00] ++ p ++ [0x04, 0x03, 0x02, 0x01])) }

/-- R121, R187: an opcode above `0x00FF` and a payload of more than 65533 bytes are refused, nothing else changes,
and every other request is admitted. Which reason is given when both hold is the model's choice (log 10): the
statement says only that it is one of the two. The refusals themselves are the spec's own choices D11 and D12, and that
a refusal is a next state with the refusal as its result is DEDUCED (log 9). -/
def Obligations.EncodeRefusesWhatHasNoFrame : Prop :=
  ∀ (s : State) (op : BitVec 16) (p : Bytes),
    (0x00FF < op.toNat → p.length ≤ 65533 →
      exec (.encode op p) s = .next { s with result := .encoded (.refused .opcodeHighByte) }) ∧
    (op.toNat ≤ 0x00FF → 65533 < p.length →
      exec (.encode op p) s = .next { s with result := .encoded (.refused .payloadTooLong) }) ∧
    (0x00FF < op.toNat → 65533 < p.length →
      ∃ r, (r = .opcodeHighByte ∨ r = .payloadTooLong) ∧
        exec (.encode op p) s = .next { s with result := .encoded (.refused r) }) ∧
    (op.toNat ≤ 0x00FF → p.length ≤ 65533 →
      ∃ E, exec (.encode op p) s = .next { s with result := .encoded (.ok E) })

/-- R122: the length field is `2 + n` without wrap-around for every admitted payload length, low byte first, the
worked values; and the opcode byte is the opcode, for an admitted one. -/
def Obligations.LengthFieldHoldsTwoPlusPayload : Prop :=
  (∀ n, n ≤ 65533 → ∃ lo hi, le16 (2 + n) = [lo, hi] ∧ lo.toNat + 256 * hi.toNat = 2 + n) ∧
    le16 (2 + 0) = [0x02, 0x00] ∧ le16 (2 + 2) = [0x04, 0x00] ∧ le16 (2 + 5) = [0x07, 0x00] ∧
    le16 (2 + 14) = [0x10, 0x00] ∧ le16 (2 + 254) = [0x00, 0x01] ∧ le16 (2 + 65533) = [0xFF, 0xFF] ∧
    ∀ op : BitVec 16, op.toNat ≤ 0x00FF → (op.setWidth 8).toNat = op.toNat

/-- R124, R125, R127, R138: the commands whose payload the source states return exactly the bytes of the rules, and the
MAC request, looped back, is never held (R127: "its byte 7 is `0x00`"): that the status byte is the one at offset 7 is the spec's own choice
D7 (log 17). -/
def Obligations.FixedCommandsReturnTheirBytes : Prop :=
  ∀ s : State,
    exec .cfgEnable s = .next { s with result := .encoded (.ok
      [0xFD, 0xFC, 0xFB, 0xFA, 0x04, 0x00, 0xFF, 0x00, 0x01, 0x00, 0x04, 0x03, 0x02, 0x01]) } ∧
    exec .cfgDisable s = .next { s with result := .encoded (.ok
      [0xFD, 0xFC, 0xFB, 0xFA, 0x02, 0x00, 0xFE, 0x00, 0x04, 0x03, 0x02, 0x01]) } ∧
    exec .queryMac s = .next { s with result := .encoded (.ok
      [0xFD, 0xFC, 0xFB, 0xFA, 0x04, 0x00, 0xA5, 0x00, 0x01, 0x00, 0x04, 0x03, 0x02, 0x01]) } ∧
    exec .btSetOn s = .next { s with result := .encoded (.ok
      [0xFD, 0xFC, 0xFB, 0xFA, 0x04, 0x00, 0xA4, 0x00, 0x01, 0x00, 0x04, 0x03, 0x02, 0x01]) } ∧
    exec .btSetOff s = .next { s with result := .encoded (.ok
      [0xFD, 0xFC, 0xFB, 0xFA, 0x04, 0x00, 0xA4, 0x00, 0x00, 0x00, 0x04, 0x03, 0x02, 0x01]) } ∧
    ∀ k, hold .ack (([0xFD, 0xFC, 0xFB, 0xFA, 0x04, 0x00, 0xA5, 0x00, 0x01, 0x00, 0x04, 0x03, 0x02, 0x01] : Bytes).take k) =
      false

/-- R131: `SET_BASIC` with `mx <= 254` returns the frame with `mx + 1` and the timeout low byte first; with
`mx = 255` it is refused. That it is refused is the spec's own choice D29; that the refusal is a next state with a refused
result, as that of a request is, and the reason's name are the model's (log 11). -/
def Obligations.SetBasicReturnsItsBytes : Prop :=
  ∀ (s : State) (mn mx lvl : Byte) (t : BitVec 16),
    (mx.toNat ≤ 254 →
      exec (.setBasic mn mx t lvl) s = .next { s with result := .encoded (.ok
        [0xFD, 0xFC, 0xFB, 0xFA, 0x07, 0x00, 0x02, 0x00, mn, BitVec.ofNat 8 (mx.toNat + 1), BitVec.ofNat 8 (t.toNat % 256),
          BitVec.ofNat 8 (t.toNat / 256), lvl, 0x04, 0x03, 0x02, 0x01]) }) ∧
    (mx.toNat = 255 →
      ∃ r, exec (.setBasic mn mx t lvl) s = .next { s with result := .encoded (.refused r) })

/-- R133, R135: the gate arrays are sent as given, gate 0 first, in a frame of 26 bytes. -/
def Obligations.GateArraysAreSentAsGiven : Prop :=
  ∀ (s : State) (g : Gates),
    exec (.setMoveSens g) s = .next { s with result := .encoded (.ok
      ([0xFD, 0xFC, 0xFB, 0xFA, 0x10, 0x00, 0x03, 0x00] ++ g.bytes ++ [0x04, 0x03, 0x02, 0x01])) } ∧
    exec (.setStillSens g) s = .next { s with result := .encoded (.ok
      ([0xFD, 0xFC, 0xFB, 0xFA, 0x10, 0x00, 0x04, 0x00] ++ g.bytes ++ [0x04, 0x03, 0x02, 0x01])) }

/-- R126, R128, R130, R132, R134, R137: the query commands frame the caller's payload under their opcode. -/
def Obligations.QueryCommandsFrameThePayload : Prop :=
  ∀ (s : State) (p : Bytes) (i : Instr) (op : Byte), p.length ≤ 65533 →
    (i, op) ∈ [(Instr.queryVersion p, 0xA0#8), (.queryResolution p, 0x11#8), (.queryBasic p, 0x12#8),
      (.queryMoveSens p, 0x13#8), (.queryStillSens p, 0x14#8), (.calQuery p, 0x1B#8)] →
    exec i s = .next { s with result := .encoded (.ok
      ([0xFD, 0xFC, 0xFB, 0xFA] ++ le16 (2 + p.length) ++ [op, 0x00] ++ p ++ [0x04, 0x03, 0x02, 0x01])) }

/-- R129, R136, R139, R140, R141, R142: the other commands with a payload of the caller's frame it under their opcode. -/
def Obligations.SetAndActionCommandsFrameThePayload : Prop :=
  ∀ (s : State) (p : Bytes) (i : Instr) (op : Byte), p.length ≤ 65533 →
    (i, op) ∈ [(Instr.setResolution p, 0x01#8), (.calStart p, 0x0B#8), (.setBaud p, 0xA1#8),
      (.factoryReset p, 0xA2#8), (.restart p, 0xA3#8), (.opA9 p, 0xA9#8)] →
    exec i s = .next { s with result := .encoded (.ok
      ([0xFD, 0xFC, 0xFB, 0xFA] ++ le16 (2 + p.length) ++ [op, 0x00] ++ p ++ [0x04, 0x03, 0x02, 0x01])) }

/-- The frame and the purity of the encoder (R120: "reads and writes no state"): every encoder operation completes on
every state, with a result that does not depend on the state, and nothing else changes. -/
def Obligations.EncoderIsPure : Prop :=
  ∀ i : Instr, i.isEncoder = true → ∃ r, ∀ s : State, exec i s = .next { s with result := .encoded r }

/-- The encoder agrees with the opcode table (R74): an admitted encoder operation returns the very bytes of its row's
word. -/
def Obligations.EncoderReturnsTheRowsWord : Prop :=
  ∀ (i : Instr) (s : State), i.isEncoder = true → i.wellFormed = true →
    exec i s = .next { s with result := .encoded (.ok (encode i)) }

/-- R75: every mnemonic is `ENCODE` with its opcode (`SET_BASIC` for the `mx` that R131 admits). -/
def Obligations.MnemonicsAreEncodeWithTheirOpcode : Prop :=
  ∀ (s : State) (p : Bytes) (g : Gates),
    exec .cfgEnable s = exec (.encode 0xFF [0x01, 0x00]) s ∧ exec .cfgDisable s = exec (.encode 0xFE []) s ∧
    exec .queryMac s = exec (.encode 0xA5 [0x01, 0x00]) s ∧ exec .btSetOn s = exec (.encode 0xA4 [0x01, 0x00]) s ∧
    exec .btSetOff s = exec (.encode 0xA4 [0x00, 0x00]) s ∧
    (∀ (mn mx lvl : Byte) (t : BitVec 16), mx.toNat ≤ 254 →
      exec (.setBasic mn mx t lvl) s = exec (.encode 0x02 ([mn, mx + 1] ++ le16 t.toNat ++ [lvl])) s) ∧
    exec (.setMoveSens g) s = exec (.encode 0x03 g.bytes) s ∧ exec (.setStillSens g) s = exec (.encode 0x04 g.bytes) s ∧
    g.bytes.length = 14 ∧
    exec (.queryVersion p) s = exec (.encode 0xA0 p) s ∧ exec (.queryResolution p) s = exec (.encode 0x11 p) s ∧
    exec (.setResolution p) s = exec (.encode 0x01 p) s ∧ exec (.queryBasic p) s = exec (.encode 0x12 p) s ∧
    exec (.queryMoveSens p) s = exec (.encode 0x13 p) s ∧ exec (.queryStillSens p) s = exec (.encode 0x14 p) s ∧
    exec (.calStart p) s = exec (.encode 0x0B p) s ∧ exec (.calQuery p) s = exec (.encode 0x1B p) s ∧
    exec (.setBaud p) s = exec (.encode 0xA1 p) s ∧ exec (.factoryReset p) s = exec (.encode 0xA2 p) s ∧
    exec (.restart p) s = exec (.encode 0xA3 p) s ∧ exec (.opA9 p) s = exec (.encode 0xA9 p) s

/-- The decoder's names mean what R75 says: the operation an opcode and payload are decoded to runs exactly as `ENCODE` with
them, but for the payload that stands for no `mx` (R131), which is refused (that its word is a `SET_BASIC` all the same is
the model's reading of the table, log 12). -/
def Obligations.NamedCommandIsEncode : Prop :=
  (∀ (s : State) (op : Byte) (p : Bytes), ¬ (op = 0x02 ∧ p.length = 5 ∧ p[1]? = some 0x00) →
      exec (named op p) s = exec (.encode (op.setWidth 16) p) s) ∧
    ∀ (s : State) (p : Bytes), p.length = 5 → p[1]? = some 0x00 →
      ∃ r, exec (named 0x02 p) s = .next { s with result := .encoded (.refused r) }

/-- R123 items 1 to 5 (an inference of the spec): length, header and footer, never held at any prefix, opcode and payload
recovered, no footer in a window that begins at offsets 4 to 7. "Never held" rests on the status byte being the one at
offset 7, the spec's own choice D7 (log 17). -/
def Obligations.EncodedFrameProperties : Prop :=
  ∀ (op : BitVec 16) (p E : Bytes), encodeRequest op p = .ok E →
    E.length = 12 + p.length ∧ WellFormedFrame .ack E ∧ (∀ k, hold .ack (E.take k) = false) ∧
      E[6]? = some (op.setWidth 8) ∧ op.toNat ≤ 0x00FF ∧ (E.take (E.length - 4)).drop 8 = p ∧
      ∀ k, 8 ≤ k → k ≤ 11 → (E.take k).drop (k - 4) ≠ Family.ack.ftr

/-- R123 item 6 (an inference of the spec), the loopback: an encoded frame fed from `pos = 0` with room for it is emitted
whole, as the only result, if and only if its payload does not contain `04 03 02 01`. That no encoded frame is held rests
on the spec's own choice D7, and that only the own family's footer ends it on D2 (log 17). -/
def Obligations.LoopbackEmitsUnlessPayloadHoldsAFooter : Prop :=
  ∀ (s : State) (op : BitVec 16) (p E : Bytes), s.pos = 0 → encodeRequest op p = .ok E → E.length ≤ s.cfg.cap →
    ((∃ t, run E s = .next (t, [{ emit := some (.ack, E), log := none }]) ∧ t.pos = 0) ↔
      ¬ ([0x04, 0x03, 0x02, 0x01] <:+: p))

/-! ## The whole machine -/

/-- The invariants of R29 are kept by every step. -/
def Obligations.EveryStepKeepsTheInvariants : Prop :=
  ∀ s t : State, Inv s → step s = .next t → Inv t

/-- Every operation of the table completes from every state that meets the invariants: no operation faults or refuses
there. -/
def Obligations.EveryOperationCompletes : Prop :=
  ∀ (i : Instr) (s : State), Inv s → ∃ t, exec i s = .next t ∧ Inv t

/-- "malformed streams never panic" (R104): from a state that meets the invariants a step stops only on a word that is
no operation, and then by that name. -/
def Obligations.OnlyAWordOfNoOperationStops : Prop :=
  ∀ s : State, Inv s →
    (∃ t, step s = .next t) ∨
      ∃ w rest e, s.inbox = .word w :: rest ∧ decode w = .error e ∧ step s = .refused (.noSuchOperation e)

/-- R25: no operation changes `CAP`; and none touches what the environment has offered (the model's own inbox, log 1). -/
def Obligations.NoOperationChangesTheCapacity : Prop :=
  ∀ (i : Instr) (s t : State), exec i s = .next t → t.cfg = s.cfg ∧ t.inbox = s.inbox

/-- R24: the results of a step are not readable later: no operation and no step depends on the kept result. -/
def Obligations.ResultsAreNotReadableLater : Prop :=
  ∀ (s : State) (r : StepResult), (∀ i, exec i { s with result := r } = exec i s) ∧ step { s with result := r } = step s

/-- R21 and R108 (inferences of the spec): cells at `pos` and beyond, and with `pos = 0` the whole history, are
unobservable. Two states that agree but for those step alike, to states that agree, with equal results; and if one
stops the other stops for the same reason. -/
def Obligations.HistoryIsUnobservable : Prop :=
  ∀ s t : State, Agree s t →
    (∀ s', step s = .next s' → ∃ t', step t = .next t' ∧ Agree s' t' ∧ s'.result = t'.result) ∧
      (∀ r, step s = .refused r → step t = .refused r) ∧ ∀ r, step s = .fault r → step t = .fault r

/-- R2 (an inference of the spec) and D17: an encoder operation and an assembler operation commute: in either order each returns
the same result, and the assembler is left in the same state. -/
def Obligations.EncoderAndAssemblerCommute : Prop :=
  ∀ (e a : Instr) (s t u v : State), e.isEncoder = true → a.isEncoder = false →
    exec a s = .next t → exec e s = .next u → exec a u = .next v →
    v = t ∧ ∃ w, exec e t = .next w ∧ w.result = u.result ∧ w.pos = t.pos ∧ w.buf = t.buf ∧ w.cfg = t.cfg ∧ w.inbox = t.inbox

/-! ## The decoder context -/

/-- R160, R165, R168: the hold predicate is the decode verdict `Incomplete`, and an emitted frame never has that verdict.
That the status byte both read is at offset 7 is the spec's own choice D7, and that `Hold` has the decoder's order of tests
is D8 (log 17). -/
def Obligations.HoldIsTheIncompleteVerdict : Prop :=
  (∀ F : Bytes, hold .ack F = true ↔ ackVerdict F = .incomplete) ∧
    ∀ (s t : State) (b : Byte) (F : Bytes) (log : Option LogEvent), exec (.feed b) s = .next t →
      t.result = .fed { emit := some (.ack, F), log := log } → ackVerdict F ≠ .incomplete

/-- R165: the verdict on an Ack frame is decided by length, status byte, reserved bytes and the MAC special case, in this
order. The source gives the status byte no offset: that it is the one at offset 7 (R166) is the spec's own choice D7
(log 17). -/
def Obligations.AckVerdictFollowsTheStatedOrder : Prop :=
  ∀ F : Bytes,
    (ackVerdict F = .shortFrame ↔ F.length < 10) ∧
    (ackVerdict F = .failure .ackStatusError ↔ 10 ≤ F.length ∧ F[7]? ≠ some 0x01) ∧
    (ackVerdict F = .failure .reservedBytesError ↔
      10 ≤ F.length ∧ F[7]? = some 0x01 ∧ ¬ (F[8]? = some 0x00 ∧ F[9]? = some 0x00)) ∧
    (∀ op, ackVerdict F = .success op ↔
      10 ≤ F.length ∧ F[7]? = some 0x01 ∧ F[8]? = some 0x00 ∧ F[9]? = some 0x00 ∧ F[6]? = some op ∧
        ¬ (op = 0xA5 ∧ F.length < 20))

/-- R161, R162, R163: the verdict on a Telemetry frame is decided by length and the two markers; its mode is Engineering
exactly for `0x01` at offset 6; the two target bits are bits 0 and 1 of offset 8. In Normal mode the gate arrays and the
light level are absent; in Engineering mode each gate array is there exactly where the frame has its 14 bytes, with the
bytes that stand at its offsets, and so is the raw light level. What the bytes at those offsets are in a frame so short
that its tail stands there, and that a field beyond the end is absent, are the model's choices (log 21). -/
def Obligations.TelemetryVerdictFollowsTheStatedOrder : Prop :=
  ∀ F : Bytes,
    (telemetryVerdict F = .shortFrame ↔ F.length < 12) ∧
    (telemetryVerdict F = .discarded ↔ 12 ≤ F.length ∧ ¬ (F[7]? = some 0xAA ∧ F[F.length - 6]? = some 0x55)) ∧
    ∀ r, telemetryVerdict F = .record r →
      (r.mode = .engineering ↔ F[6]? = some 0x01) ∧
      (∃ b, F[8]? = some b ∧ r.moving = b.getLsbD 0 ∧ r.still = b.getLsbD 1) ∧
      (r.mode = .normal → r.moveEnergies = none ∧ r.stillEnergies = none ∧ r.lightRaw = none ∧ r.light = none) ∧
      (r.mode = .engineering →
        (F.length < 31 → r.moveEnergies = none) ∧
        (31 ≤ F.length → ∃ g, r.moveEnergies = some g ∧ g.length = 14 ∧ ∀ k, k < 14 → g[k]? = F[17 + k]?) ∧
        (F.length < 45 → r.stillEnergies = none) ∧
        (45 ≤ F.length → ∃ g, r.stillEnergies = some g ∧ g.length = 14 ∧ ∀ k, k < 14 → g[k]? = F[31 + k]?) ∧
        r.lightRaw = F[45]? ∧
        ∀ raw, F[45]? = some raw → ∃ p, r.light = some p ∧
          (255 * p.toNat ≤ raw.toNat * 100 + 254 ∧ raw.toNat * 100 ≤ 255 * p.toNat + 254) ∧ p.toNat ≤ 100)

/-- R168, R169 and R170: the version example formats to the literal string; a MAC other than the sentinel, as the six
bytes at offsets 10 to 15, marks Bluetooth enabled, and the sentinel does not; each distance resolution has its byte and
each assigned byte its resolution; the baud-rate enumerants are the bytes 1 to 8, 1 is 9600, 8 is 460800, and a rate is
mapped to an enumerant that has it, wherever one has. Which enumerant is answered where two of the six open rates are
equal is as open as the rates (log 21). -/
def Obligations.VersionAndResolutionReadAsStated : Prop :=
  versionText [0x01, 0x02, 0x03, 0x04, 0x05, 0x06] = some ['2', '.', '0', '1', '.', '0', '6', '0', '5', '0', '4', '0', '3'] ∧
    (∀ F : Bytes, ackVerdict F = .success 0xA5 →
      ∃ m, macReport F = some m ∧
        (m.bluetoothEnabled = false ↔ (F.drop 10).take 6 = [0x08, 0x05, 0x04, 0x03, 0x02, 0x01]) ∧
        (m.bluetoothEnabled = true ↔ m.text = some (colonHex ((F.drop 10).take 6))) ∧
        (m.bluetoothEnabled = false ↔ m.text = none)) ∧
    (∀ (b : Byte) (r : Resolution), resolutionOf b = some r ↔ r.toByte = b) ∧
    Resolution.m020.toByte = 0x03 ∧ Resolution.m050.toByte = 0x01 ∧ Resolution.m075.toByte = 0x00 ∧
    (∀ (b : Byte) (r : BaudRate), baudOf b = some r ↔ r.toByte = b) ∧
    (∀ b : Byte, baudOf b = none ↔ ¬ (1 ≤ b.toNat ∧ b.toNat ≤ 8)) ∧
    baudRate 0x01 = some 9600 ∧ baudRate 0x08 = some 460800 ∧
    baudOfRate 9600 = some .baud1 ∧ baudOfRate 460800 = some .baud8 ∧
    (∀ (n : Nat) (r : BaudRate), baudOfRate n = some r → r.rate = n) ∧
    ∀ (n : Nat) (r : BaudRate), r.rate = n → ∃ r', baudOfRate n = some r'
end

