-- ==== Sys2Proof/Laws/Decode.lean ====
section
/-! SUPPORT. The parts of the decoder, each said once. -/

namespace Sys2Proof

@[simp] theorem hdr_length (f : Family) : f.hdr.length = 4 := by cases f <;> rfl
@[simp] theorem ftr_length (f : Family) : f.ftr.length = 4 := by cases f <;> rfl

/-- The bytes between header and footer are recovered from the frame. -/
theorem stripFrame_frame (f : Family) (body : Bytes) : stripFrame f (f.hdr ++ body ++ f.ftr) = some body := by
  cases f <;> simp [stripFrame, Family.hdr, Family.ftr]

/-- A word that is a frame of family `f` is its header, what is between, its footer. -/
theorem stripFrame_eq_some {f : Family} {F body : Bytes} (h : stripFrame f F = some body) :
    F = f.hdr ++ body ++ f.ftr := by
  unfold stripFrame at h
  split at h
  · next hc =>
    obtain ⟨h8, hh, hf⟩ := hc
    cases h
    have e1 : F = F.take 4 ++ F.drop 4 := (List.take_append_drop 4 F).symm
    have e2 : F.drop 4 = (F.drop 4).take (F.length - 8) ++ (F.drop 4).drop (F.length - 8) :=
      (List.take_append_drop _ _).symm
    rw [List.drop_drop, show 4 + (F.length - 8) = F.length - 4 by omega, hf] at e2
    rw [hh] at e1
    rw [e2] at e1
    simpa [List.append_assoc] using e1
  · cases h

/-- The two families' frames are told apart by the header. -/
theorem stripFrame_other (body : Bytes) :
    stripFrame .ack (Family.telemetry.hdr ++ body ++ Family.telemetry.ftr) = none := by
  simp [stripFrame, Family.hdr]

/-- A command body is read back from the length field, opcode and payload it was built of. -/
theorem commandOf_build {op : Byte} {p : Bytes} (hp : p.length ≤ 65533) :
    commandOf (le16 (2 + p.length) ++ [op, 0x00] ++ p) = some (op, p) := by
  have : (2 + p.length) % 256 + 256 * ((2 + p.length) / 256 % 256) = 2 + p.length := by omega
  simp [commandOf, le16, readLE16, this]

/-- The decoder on a word of 8 bytes or more. -/
theorem decode_long {w : Bytes} (h : 8 ≤ w.length) :
    decode w = match stripFrame .ack w with
      | some body => (match commandOf body with | some (op, p) => .ok (named op p) | none => .ok (.ack body))
      | none => (match stripFrame .telemetry w with | some body => .ok (.telemetry body) | none => .error .notAFrame) := by
  match w, h with
  | a :: b :: c, h =>
    have : ¬ (a :: b :: c).length < 8 := by omega
    exact if_neg this

/-- The decoder on a frame bounded by the command constants. -/
theorem decode_ack (body : Bytes) : decode (Family.ack.hdr ++ body ++ Family.ack.ftr) =
    match commandOf body with | some (op, p) => .ok (named op p) | none => .ok (.ack body) := by
  rw [decode_long (by simp; omega), stripFrame_frame]

/-- The decoder on a frame bounded by the telemetry constants. -/
theorem decode_tel (body : Bytes) : decode (Family.telemetry.hdr ++ body ++ Family.telemetry.ftr) = .ok (.telemetry body) := by
  rw [decode_long (by simp; omega), stripFrame_other, stripFrame_frame]

/-- A command word is a frame of the command constants. -/
theorem commandWord_eq (op : Byte) (p : Bytes) : commandWord op p = Family.ack.hdr ++ (le16 (2 + p.length) ++ [op, 0x00] ++ p) ++ Family.ack.ftr := by
  simp [commandWord, Family.hdr, Family.ftr]

/-- A command word decodes to the operation its opcode and payload are named by. -/
theorem decode_commandWord {op : Byte} {p : Bytes} (hp : p.length ≤ 65533) : decode (commandWord op p) = .ok (named op p) := by
  rw [commandWord_eq, decode_ack, commandOf_build hp]

/-- Two bytes that read as a number are its bytes (R40). -/
theorem le16_read {lo hi : Byte} {n : Nat} (h : lo.toNat + 256 * hi.toNat = n) : le16 n = [lo, hi] := by
  have := lo.isLt; have := hi.isLt
  have e1 : BitVec.ofNat 8 n = lo := by apply BitVec.eq_of_toNat_eq; simp; omega
  have e2 : BitVec.ofNat 8 (n / 256) = hi := by apply BitVec.eq_of_toNat_eq; simp; omega
  simp [le16, e1, e2]

/-- A command body is the length field, opcode and payload that are read from it. -/
theorem commandOf_some {body : Bytes} {op : Byte} {p : Bytes} (h : commandOf body = some (op, p)) :
    body = le16 (2 + p.length) ++ [op, 0x00] ++ p ∧ p.length ≤ 65533 := by
  unfold commandOf at h
  split at h
  · next lo hi o oh q =>
    split at h
    · next hc =>
      obtain ⟨rfl, hlen⟩ := hc
      cases h
      have := lo.isLt; have := hi.isLt
      unfold readLE16 at hlen
      refine ⟨?_, by omega⟩
      have e1 : BitVec.ofNat 8 (2 + p.length) = lo := by apply BitVec.eq_of_toNat_eq; simp; omega
      have e2 : BitVec.ofNat 8 ((2 + p.length) / 256) = hi := by apply BitVec.eq_of_toNat_eq; simp; omega
      simp [le16, e1, e2]
    · cases h
  · cases h

/-- The two bytes of a timeout. -/
theorem extract_eq_ofNat (t : BitVec 16) : t.extractLsb' 0 8 = BitVec.ofNat 8 t.toNat ∧ t.extractLsb' 8 8 = BitVec.ofNat 8 (t.toNat / 256) := by
  constructor
  · apply BitVec.eq_of_toNat_eq; simp
  · apply BitVec.eq_of_toNat_eq; simp [Nat.shiftRight_eq_div_pow]

/-- `SET_BASIC` is read back from its five payload bytes. -/
theorem setBasicOf_build (mn mx lvl : Byte) (t : BitVec 16) :
    setBasicOf [mn, mx + 1, t.extractLsb' 0 8, t.extractLsb' 8 8, lvl] = some (.setBasic mn mx t lvl) := by
  have h2 : mx + 1 - 1 = mx := BitVec.add_sub_cancel _ _
  have h3 : BitVec.ofNat 16 (readLE16 (t.extractLsb' 0 8) (t.extractLsb' 8 8)) = t := by
    apply BitVec.eq_of_toNat_eq
    have := t.isLt
    simp [readLE16, Nat.shiftRight_eq_div_pow]; omega
  simp only [setBasicOf, h2, h3]

/-- The five payload bytes that are a `SET_BASIC`. -/
theorem setBasicOf_some {p : Bytes} {i : Instr} (h : setBasicOf p = some i) :
    ∃ mn mx t lvl, i = .setBasic mn mx t lvl ∧ p = [mn, mx + 1, t.extractLsb' 0 8, t.extractLsb' 8 8, lvl] := by
  unfold setBasicOf at h
  split at h
  · next mn mx1 tLo tHi lvl =>
    cases h
    refine ⟨mn, mx1 - 1, BitVec.ofNat 16 (readLE16 tLo tHi), lvl, rfl, ?_⟩
    have a : mx1 - 1 + 1 = mx1 := by rw [BitVec.sub_add_cancel]
    have hlo := tLo.isLt
    have hhi := tHi.isLt
    have b : (BitVec.ofNat 16 (readLE16 tLo tHi)).extractLsb' 0 8 = tLo := by
      apply BitVec.eq_of_toNat_eq; simp [readLE16]; omega
    have c : (BitVec.ofNat 16 (readLE16 tLo tHi)).extractLsb' 8 8 = tHi := by
      apply BitVec.eq_of_toNat_eq; simp [readLE16, Nat.shiftRight_eq_div_pow]; omega
    rw [a, b, c]
  · cases h

/-- A gate array is read back from its bytes. -/
theorem gatesOf_bytes (g : Gates) : gatesOf g.bytes = some g := by
  unfold gatesOf; rw [dif_pos g.len]

/-- The rows of the caller's payload, by opcode. -/
theorem varRow_cases (op : Byte) (p : Bytes) :
    (op = 0xA0 ∧ varRow op p = .queryVersion p) ∨
    (op = 0x11 ∧ varRow op p = .queryResolution p) ∨
    (op = 0x01 ∧ varRow op p = .setResolution p) ∨
    (op = 0x12 ∧ varRow op p = .queryBasic p) ∨
    (op = 0x13 ∧ varRow op p = .queryMoveSens p) ∨
    (op = 0x14 ∧ varRow op p = .queryStillSens p) ∨
    (op = 0x0B ∧ varRow op p = .calStart p) ∨
    (op = 0x1B ∧ varRow op p = .calQuery p) ∨
    (op = 0xA1 ∧ varRow op p = .setBaud p) ∨
    (op = 0xA2 ∧ varRow op p = .factoryReset p) ∨
    (op = 0xA3 ∧ varRow op p = .restart p) ∨
    (op = 0xA9 ∧ varRow op p = .opA9 p) ∨
    varRow op p = .encode (op.setWidth 16) p := by
  by_cases h0xA0 : op = 0xA0
  · subst h0xA0; simp [varRow]
  by_cases h0x11 : op = 0x11
  · subst h0x11; simp [varRow]
  by_cases h0x01 : op = 0x01
  · subst h0x01; simp [varRow]
  by_cases h0x12 : op = 0x12
  · subst h0x12; simp [varRow]
  by_cases h0x13 : op = 0x13
  · subst h0x13; simp [varRow]
  by_cases h0x14 : op = 0x14
  · subst h0x14; simp [varRow]
  by_cases h0x0B : op = 0x0B
  · subst h0x0B; simp [varRow]
  by_cases h0x1B : op = 0x1B
  · subst h0x1B; simp [varRow]
  by_cases h0xA1 : op = 0xA1
  · subst h0xA1; simp [varRow]
  by_cases h0xA2 : op = 0xA2
  · subst h0xA2; simp [varRow]
  by_cases h0xA3 : op = 0xA3
  · subst h0xA3; simp [varRow]
  by_cases h0xA9 : op = 0xA9
  · subst h0xA9; simp [varRow]
  have : varRow op p = .encode (op.setWidth 16) p := by rw [varRow, if_neg h0xA0, if_neg h0x11, if_neg h0x01, if_neg h0x12, if_neg h0x13, if_neg h0x14, if_neg h0x0B, if_neg h0x1B, if_neg h0xA1, if_neg h0xA2, if_neg h0xA3, if_neg h0xA9]
  simp [this]

/-- The fixed rows, by opcode and payload. -/
theorem fixedRow_cases {op : Byte} {p : Bytes} {i : Instr} (h : fixedRow op p = some i) :
    (op = 0xFF ∧ p = [0x01, 0x00] ∧ i = .cfgEnable) ∨ (op = 0xFE ∧ p = [] ∧ i = .cfgDisable) ∨
    (op = 0xA5 ∧ p = [0x01, 0x00] ∧ i = .queryMac) ∨ (op = 0xA4 ∧ p = [0x01, 0x00] ∧ i = .btSetOn) ∨
    (op = 0xA4 ∧ p = [0x00, 0x00] ∧ i = .btSetOff) ∨ (op = 0x02 ∧ setBasicOf p = some i) ∨
    (op = 0x03 ∧ ∃ g : Gates, g.bytes = p ∧ i = .setMoveSens g) ∨ (op = 0x04 ∧ ∃ g : Gates, g.bytes = p ∧ i = .setStillSens g) := by
  have hg : ∀ g, gatesOf p = some g → g.bytes = p := by
    intro g hg; unfold gatesOf at hg; split at hg <;> cases hg; rfl
  unfold fixedRow at h
  by_cases h1 : op = 0xFF
  · rw [if_pos h1] at h; split at h <;> cases h; simp [*]
  rw [if_neg h1] at h
  by_cases h2 : op = 0xFE
  · rw [if_pos h2] at h; split at h <;> cases h; simp [*]
  rw [if_neg h2] at h
  by_cases h3 : op = 0xA5
  · rw [if_pos h3] at h; split at h <;> cases h; simp [*]
  rw [if_neg h3] at h
  by_cases h4 : op = 0xA4
  · rw [if_pos h4] at h; split at h
    · cases h; simp [*]
    · split at h <;> cases h; simp [*]
  rw [if_neg h4] at h
  by_cases h5 : op = 0x02
  · rw [if_pos h5] at h; simp [*]
  rw [if_neg h5] at h
  by_cases h6 : op = 0x03
  · rw [if_pos h6] at h
    obtain ⟨g, hg', rfl⟩ := Option.map_eq_some_iff.1 h
    exact .inr (.inr (.inr (.inr (.inr (.inr (.inl ⟨h6, g, hg g hg', rfl⟩))))))
  rw [if_neg h6] at h
  by_cases h7 : op = 0x04
  · rw [if_pos h7] at h
    obtain ⟨g, hg', rfl⟩ := Option.map_eq_some_iff.1 h
    exact .inr (.inr (.inr (.inr (.inr (.inr (.inr ⟨h7, g, hg g hg', rfl⟩))))))
  rw [if_neg h7] at h; cases h

end Sys2Proof
end

