-- ==== Sys2Proof/Laws/State.lean ====
section
/-! SUPPORT. One lemma per field per update of the state, true by rfl. -/

namespace Sys2Proof.Machine

@[simp] theorem withResult_cfg (s : State) (r : StepResult) : (s.withResult r).cfg = s.cfg := rfl
@[simp] theorem withResult_pos (s : State) (r : StepResult) : (s.withResult r).pos = s.pos := rfl
@[simp] theorem withResult_buf (s : State) (r : StepResult) : (s.withResult r).buf = s.buf := rfl
@[simp] theorem withResult_inbox (s : State) (r : StepResult) : (s.withResult r).inbox = s.inbox := rfl
@[simp] theorem withResult_result (s : State) (r : StepResult) : (s.withResult r).result = r := rfl

@[simp] theorem abandon_cfg (s : State) : (abandon s).cfg = s.cfg := rfl
@[simp] theorem abandon_pos (s : State) : (abandon s).pos = 0 := rfl
@[simp] theorem abandon_buf (s : State) : (abandon s).buf = s.buf := rfl
@[simp] theorem abandon_inbox (s : State) : (abandon s).inbox = s.inbox := rfl
@[simp] theorem abandon_result (s : State) : (abandon s).result = s.result := rfl

@[simp] theorem offerNext_cfg (s : State) (o : Offer) : (offerNext s o).cfg = s.cfg := rfl
@[simp] theorem offerNext_pos (s : State) (o : Offer) : (offerNext s o).pos = s.pos := rfl
@[simp] theorem offerNext_buf (s : State) (o : Offer) : (offerNext s o).buf = s.buf := rfl
@[simp] theorem offerNext_inbox (s : State) (o : Offer) : (offerNext s o).inbox = o :: s.inbox := rfl
@[simp] theorem offerNext_result (s : State) (o : Offer) : (offerNext s o).result = s.result := rfl

@[simp] theorem operation_word (w : Bytes) : (Offer.word w).operation = decode w := rfl
@[simp] theorem operation_call (i : Instr) : (Offer.call i).operation = .ok i := rfl

/-- An error of the assembler changes `pos` at most, and only to 0 (R191). -/
theorem takeError_state (c : ErrorClass) (s : State) : (takeError c s).1 = s ∨ (takeError c s).1 = abandon s := by
  cases c <;> simp [takeError]

@[simp] theorem takeError_cfg (c : ErrorClass) (s : State) : (takeError c s).1.cfg = s.cfg := by cases c <;> rfl
@[simp] theorem takeError_buf (c : ErrorClass) (s : State) : (takeError c s).1.buf = s.buf := by cases c <;> rfl
@[simp] theorem takeError_inbox (c : ErrorClass) (s : State) : (takeError c s).1.inbox = s.inbox := by cases c <;> rfl

end Sys2Proof.Machine
end

