-- ==== Sys2Proof/Laws/Memory.lean ====
section
/-! SUPPORT. The laws of the buffer as a list of pairs: read after write, canonical form, equal reads. -/

namespace Sys2Proof.Machine

@[simp] theorem Memory.read_nil (i : Nat) : Memory.read [] i = none := rfl

/-- A cell read after a write to it holds the value written. -/
@[simp] theorem Memory.read_write_same (m : Memory) (i : Nat) (v : Byte) : (Memory.write m i v).read i = some v := by
  induction m with
  | nil => simp [Memory.write, Memory.read]
  | cons c m ih =>
    obtain ⟨a, b⟩ := c
    unfold Memory.write
    split
    · simp [Memory.read]
    · split
      · next h => simp [Memory.read, h]
      · next h => simp [Memory.read, Ne.symm h, ih]

/-- A write leaves every other cell alone. -/
theorem Memory.read_write_other (m : Memory) {i j : Nat} (v : Byte) (h : j ≠ i) :
    (Memory.write m i v).read j = m.read j := by
  induction m with
  | nil => simp [Memory.write, Memory.read, Ne.symm h]
  | cons c m ih =>
    obtain ⟨a, b⟩ := c
    unfold Memory.write
    split
    · simp [Memory.read, Ne.symm h]
    · split
      · next h' => subst h'; simp [Memory.read, Ne.symm h]
      · simp [Memory.read, ih]

/-- The first index of a canonical memory, and that the rest is canonical and above it. -/
theorem Memory.wf_cons {a : Nat} {b : Byte} {m : Memory} :
    Memory.wf ((a, b) :: m) = true ↔ Memory.wf m = true ∧ ∀ c ∈ m, a < c.1 := by
  induction m generalizing a b with
  | nil => simp [Memory.wf]
  | cons c m ih =>
    obtain ⟨e, d⟩ := c
    have e1 : Memory.wf ((a, b) :: (e, d) :: m) = (decide (a < e) && Memory.wf ((e, d) :: m)) := rfl
    rw [e1, Bool.and_eq_true, decide_eq_true_iff, ih]
    constructor
    · rintro ⟨h, hw, hm⟩
      refine ⟨⟨hw, hm⟩, ?_⟩
      intro c hc
      rcases List.mem_cons.1 hc with rfl | hc
      · exact h
      · exact Nat.lt_trans h (hm c hc)
    · rintro ⟨⟨hw, hm⟩, h⟩
      exact ⟨h (e, d) (by simp), hw, hm⟩

/-- The indices a write lists are those listed before and the one written. -/
theorem Memory.mem_write {m : Memory} {i : Nat} {v : Byte} {c : Host.Cell} (h : c ∈ Memory.write m i v) :
    c = (i, v) ∨ c ∈ m := by
  induction m with
  | nil => simpa [Memory.write] using h
  | cons d m ih =>
    obtain ⟨a, b⟩ := d
    unfold Memory.write at h
    split at h
    · simpa using h
    · split at h
      · next h' =>
        rcases List.mem_cons.1 h with rfl | h
        · exact .inl (by rw [h'])
        · exact .inr (List.mem_cons_of_mem _ h)
      · rcases List.mem_cons.1 h with rfl | h
        · exact .inr (by simp)
        · rcases ih h with rfl | h
          · exact .inl rfl
          · exact .inr (List.mem_cons_of_mem _ h)

/-- A write keeps the canonical form. -/
theorem Memory.wf_write {m : Memory} (i : Nat) (v : Byte) (h : m.wf = true) : (Memory.write m i v).wf = true := by
  induction m with
  | nil => rfl
  | cons c m ih =>
    obtain ⟨a, b⟩ := c
    obtain ⟨hm, ha⟩ := Memory.wf_cons.1 h
    unfold Memory.write
    split
    · next hi =>
      refine Memory.wf_cons.2 ⟨h, ?_⟩
      intro c hc
      rcases List.mem_cons.1 hc with rfl | hc
      · exact hi
      · exact Nat.lt_trans hi (ha c hc)
    · split
      · exact Memory.wf_cons.2 ⟨hm, ha⟩
      · next h1 h2 =>
        refine Memory.wf_cons.2 ⟨ih hm, ?_⟩
        intro c hc
        rcases Memory.mem_write hc with rfl | hc
        · simp only; omega
        · exact ha c hc

/-- A cell below every listed index holds no value. -/
theorem Memory.read_eq_none {m : Memory} {i : Nat} (h : ∀ c ∈ m, i < c.1) : m.read i = none := by
  induction m with
  | nil => rfl
  | cons c m ih =>
    have hc := h c (by simp)
    have hi : ¬ c.1 = i := by omega
    simp only [Memory.read, hi, if_false]
    exact ih fun d hd => h d (List.mem_cons_of_mem _ hd)

/-- Equal memories are equal data: canonical memories that read alike are the same list. -/
theorem Memory.ext_read {m n : Memory} (hm : m.wf = true) (hn : n.wf = true) (h : ∀ i, m.read i = n.read i) : m = n := by
  induction m generalizing n with
  | nil =>
    cases n with
    | nil => rfl
    | cons c n => have := h c.1; simp [Memory.read] at this
  | cons c m ih =>
    obtain ⟨a, b⟩ := c
    obtain ⟨hm', ha⟩ := Memory.wf_cons.1 hm
    cases n with
    | nil => have := h a; simp [Memory.read] at this
    | cons d n =>
      obtain ⟨e, f⟩ := d
      obtain ⟨hn', he⟩ := Memory.wf_cons.1 hn
      have hae : a = e := by
        rcases Nat.lt_trichotomy a e with hlt | heq | hgt
        · have h1 := h a
          have : Memory.read ((e, f) :: n) a = none := Memory.read_eq_none fun c hc => by
            rcases List.mem_cons.1 hc with rfl | hc
            · exact hlt
            · exact Nat.lt_trans hlt (he c hc)
          rw [this] at h1
          simp [Memory.read] at h1
        · exact heq
        · have h1 := h e
          have : Memory.read ((a, b) :: m) e = none := Memory.read_eq_none fun c hc => by
            rcases List.mem_cons.1 hc with rfl | hc
            · exact hgt
            · exact Nat.lt_trans hgt (ha c hc)
          rw [this] at h1
          simp [Memory.read] at h1
      subst hae
      have hb : b = f := by have := h a; simpa [Memory.read] using this
      subst hb
      congr 1
      refine ih hm' hn' fun i => ?_
      have hi := h i
      by_cases hai : a = i
      · subst hai
        rw [Memory.read_eq_none ha, Memory.read_eq_none he]
      · simpa [Memory.read, hai] using hi

end Sys2Proof.Machine
end

