-- ==== Sys2Proof/Laws/Ops.lean ====
section
/-! SUPPORT. What each shared operation over the buffer can do, said once. -/

namespace Sys2Proof.Machine

@[simp] theorem andThen_next {α β : Type} (a : α) (f : α → Res β) : andThen (.next a) f = f a := rfl
@[simp] theorem andThen_fault {α β : Type} (r : Fault) (f : α → Res β) : andThen (.fault r) f = .fault r := rfl
@[simp] theorem andThen_refused {α β : Type} (r : Refusal) (f : α → Res β) : andThen (.refused r) f = .refused r := rfl

/-- A sequence answers a value exactly when both parts do. -/
theorem andThen_eq_next {α β : Type} {x : Res α} {f : α → Res β} {b : β} :
    andThen x f = .next b ↔ ∃ a, x = .next a ∧ f a = .next b := by
  cases x <;> simp [andThen]

/-- A cell that is read exists and holds the value. -/
theorem readCell_eq_next {s : State} {i : Nat} {b : Byte} :
    readCell s i = .next b ↔ i < s.cfg.cap ∧ s.buf.read i = some b := by
  unfold readCell
  split
  · split <;> simp_all
  · simp_all

/-- A slice that is read: as many bytes as asked for, each the value of its cell, and every cell exists. -/
theorem readCells_eq_next {s : State} {a n : Nat} {F : Bytes} :
    readCells s a n = .next F ↔
      F.length = n ∧ ∀ i, i < n → a + i < s.cfg.cap ∧ s.buf.read (a + i) = F[i]? := by
  induction n generalizing a F with
  | zero =>
    simp only [readCells]
    constructor
    · rintro h
      cases h
      simp
    · rintro ⟨h, -⟩
      rw [List.length_eq_zero_iff.1 h]
  | succ n ih =>
    simp only [readCells, andThen_eq_next, readCell_eq_next]
    constructor
    · rintro ⟨b, ⟨hlt, hb⟩, bs, hbs, heq⟩
      cases heq
      obtain ⟨hl, hr⟩ := ih.1 hbs
      refine ⟨by simp [hl], ?_⟩
      intro i hi
      cases i with
      | zero => simpa using ⟨hlt, hb⟩
      | succ i =>
        have := hr i (by omega)
        simpa [Nat.add_assoc, Nat.add_comm 1 i] using this
    · rintro ⟨hl, hr⟩
      cases F with
      | nil => simp at hl
      | cons b bs =>
        have h0 := hr 0 (by omega)
        refine ⟨b, by simpa using h0, bs, ih.2 ⟨by simpa using hl, ?_⟩, rfl⟩
        intro i hi
        have := hr (i + 1) (by omega)
        simpa [Nat.add_assoc, Nat.add_comm 1 i] using this

/-- The bytes in progress are `pos` many. -/
theorem inProgress_length {s : State} {F : Bytes} (h : inProgress s = .next F) : F.length = s.pos :=
  (readCells_eq_next.1 h).1

/-- A store that succeeds: there is room, the byte stands at `pos`, and `pos` is one more. -/
theorem storeByte_eq_next {b : Byte} {s t : State} :
    storeByte b s = .next t ↔
      s.pos < s.cfg.cap ∧ t = { s with buf := s.buf.write s.pos b, pos := s.pos + 1 } := by
  unfold storeByte
  split
  · simp_all [eq_comm]
  · simp_all

/-- A store appends its byte to the bytes in progress. -/
theorem inProgress_storeByte {b : Byte} {s t : State} {F : Bytes} (hs : storeByte b s = .next t)
    (hF : inProgress s = .next F) : inProgress t = .next (F ++ [b]) := by
  obtain ⟨hlt, rfl⟩ := storeByte_eq_next.1 hs
  obtain ⟨hl, hr⟩ := readCells_eq_next.1 hF
  refine readCells_eq_next.2 ⟨by simp [hl], ?_⟩
  intro i hi
  simp only at hi ⊢
  rcases Nat.lt_succ_iff_lt_or_eq.1 hi with h | h
  · obtain ⟨h1, h2⟩ := hr i h
    simp only [Nat.zero_add] at h1 h2 ⊢
    rw [Memory.read_write_other _ _ (by omega), h2, List.getElem?_append_left (by omega)]
    exact ⟨h1, rfl⟩
  · subst h
    simp only [Nat.zero_add, Memory.read_write_same]
    exact ⟨hlt, by simp [← hl]⟩

/-- The family of a state is that of the first byte in progress. -/
theorem family_eq_next {s : State} {f : Family} :
    family s = .next f ↔ ∃ b, readCell s 0 = .next b ∧ familyOf b = some f := by
  unfold family
  rw [andThen_eq_next]
  constructor
  · rintro ⟨b, hb, h⟩
    refine ⟨b, hb, ?_⟩
    split at h <;> simp_all
  · rintro ⟨b, hb, h⟩
    exact ⟨b, hb, by simp [h]⟩

/-- With bytes in progress, the family is read from the first of them. -/
theorem family_of_inProgress {s : State} {F : Bytes} {f : Family} (hF : inProgress s = .next F) (hpos : 1 ≤ s.pos) :
    family s = .next f ↔ F.head?.bind familyOf = some f := by
  obtain ⟨hl, hr⟩ := readCells_eq_next.1 hF
  have h0 := hr 0 (by omega)
  rw [family_eq_next]
  cases F with
  | nil => simp at hl; omega
  | cons b bs =>
    simp only [Nat.zero_add, List.getElem?_cons_zero] at h0
    simp [readCell_eq_next, h0.1, h0.2]

/-- The end of the bytes in progress, read as a slice. -/
theorem readCells_drop {s : State} {F : Bytes} (hF : inProgress s = .next F) {k : Nat} (hk : k ≤ s.pos) :
    readCells s k (s.pos - k) = .next (F.drop k) := by
  obtain ⟨hl, hr⟩ := readCells_eq_next.1 hF
  refine readCells_eq_next.2 ⟨by simp [hl], ?_⟩
  intro i hi
  have := hr (k + i) (by omega)
  simpa [List.getElem?_drop] using this

/-- The bytes in progress depend on the instance, the cursor and the buffer alone. -/
theorem inProgress_congr {s t : State} (h1 : s.cfg = t.cfg) (h2 : s.pos = t.pos) (h3 : s.buf = t.buf) :
    inProgress s = inProgress t := by
  have : ∀ n a, readCells s a n = readCells t a n := by
    intro n
    induction n with
    | zero => intro a; rfl
    | succ n ih => intro a; simp [readCells, readCell, h1, h3, ih]
  rw [inProgress, inProgress, h2, this]

/-- At `pos = 0` nothing is in progress. -/
theorem inProgress_zero {s : State} (h : s.pos = 0) : inProgress s = .next [] := by
  simp [inProgress, h, readCells]

/-- A store with room for it. -/
theorem storeByte_room {b : Byte} {s : State} (h : s.pos < s.cfg.cap) :
    storeByte b s = .next { s with buf := s.buf.write s.pos b, pos := s.pos + 1 } := storeByte_eq_next.2 ⟨h, rfl⟩

/-- A store beyond the first cell keeps the family. -/
theorem family_storeByte {b : Byte} {s t : State} {f : Family} (hpos : 1 ≤ s.pos) (hs : storeByte b s = .next t)
    (hf : family s = .next f) : family t = .next f := by
  obtain ⟨hlt, rfl⟩ := storeByte_eq_next.1 hs
  obtain ⟨c, hc, hfam⟩ := family_eq_next.1 hf
  obtain ⟨h0, h1⟩ := readCell_eq_next.1 hc
  refine family_eq_next.2 ⟨c, readCell_eq_next.2 ⟨h0, ?_⟩, hfam⟩
  rw [Memory.read_write_other _ _ (by omega)]
  exact h1

end Sys2Proof.Machine
end

