-- ==== Sys2Proof/Laws/Assembler.lean ====
section
/-! SUPPORT. What the assembler's operations can do, said once: the cases of `FEED`, their inversion, runs. -/

namespace Sys2Proof.Machine

/-- The two first header bytes select their family, and no other byte selects one (R23). -/
theorem familyOf_eq_some {b : Byte} {f : Family} :
    familyOf b = some f ↔ (b = 0xF4 ∧ f = .telemetry) ∨ (b = 0xFD ∧ f = .ack) := by
  unfold familyOf
  split
  · next h => subst h; cases f <;> simp
  · split
    · next h => subst h; cases f <;> simp
    · simp_all

/-- The first byte of a header selects its family. -/
@[simp] theorem familyOf_hdr_head (f : Family) : f.hdr.head?.bind familyOf = some f := by cases f <;> rfl

/-- No first header byte stands at offsets 1 to 3 of a header. -/
theorem hdr_inner_ne {f : Family} {i : Nat} {b : Byte} (hi : 1 ≤ i) (h : f.hdr[i]? = some b) : b ≠ 0xF4 ∧ b ≠ 0xFD := by
  match i, hi with
  | 1, _ | 2, _ | 3, _ => cases f <;> · simp only [Family.hdr] at h; cases h; decide
  | i + 4, _ => cases f <;> simp [Family.hdr] at h

/-- The case of a body state with room: append without a footer, hold or emit with one. -/
theorem bodyCase_eq_next {b : Byte} {s : State} {c : FeedCase} :
    bodyCase b s = .next c ↔ ∃ u, storeByte b s = .next u ∧
      ((footerAt u = .next false ∧ c = .append) ∨
        (footerAt u = .next true ∧ ∃ f F, family u = .next f ∧ inProgress u = .next F ∧
          c = if hold f F = true then .hold else .emit)) := by
  simp only [bodyCase, andThen_eq_next]
  constructor
  · rintro ⟨u, hu, m, hm, h⟩
    refine ⟨u, hu, ?_⟩
    cases m with
    | true =>
      obtain ⟨f, hf, h⟩ := andThen_eq_next.1 h
      obtain ⟨F, hF, h⟩ := andThen_eq_next.1 h
      cases h
      exact .inr ⟨hm, f, F, hf, hF, rfl⟩
    | false => cases h; exact .inl ⟨hm, rfl⟩
  · rintro ⟨u, hu, ⟨hm, rfl⟩ | ⟨hm, f, F, hf, hF, rfl⟩⟩
    · exact ⟨u, hu, false, hm, rfl⟩
    · exact ⟨u, hu, true, hm, by simp [hf, hF]⟩

/-- The case that is taken, by the class of the state (R90). -/
theorem feedCase_eq_next {b : Byte} {s : State} {c : FeedCase} :
    feedCase b s = .next c ↔
      (s.pos = 0 ∧ c = if (familyOf b).isSome then .start else .huntDiscard) ∨
      (1 ≤ s.pos ∧ s.pos ≤ 3 ∧ ∃ f, family s = .next f ∧
        c = if f.hdr[s.pos]? = some b then .headerAccept else .headerMismatch) ∨
      (4 ≤ s.pos ∧ s.pos = s.cfg.cap ∧ c = .overflow) ∨
      (4 ≤ s.pos ∧ s.pos < s.cfg.cap ∧ bodyCase b s = .next c) := by
  unfold feedCase
  constructor
  · intro h
    split at h
    · next h0 => cases h; exact .inl ⟨h0, rfl⟩
    · split at h
      · next h0 h3 =>
        obtain ⟨f, hf, h⟩ := andThen_eq_next.1 h
        cases h
        exact .inr (.inl ⟨by omega, h3, f, hf, rfl⟩)
      · split at h
        · next h3 hc => cases h; exact .inr (.inr (.inl ⟨by omega, hc, rfl⟩))
        · split at h
          · cases h
          · exact .inr (.inr (.inr ⟨by omega, by omega, h⟩))
  · rintro (⟨h0, rfl⟩ | ⟨h1, h3, f, hf, rfl⟩ | ⟨h4, hc, rfl⟩ | ⟨h4, hc, h⟩)
    · rw [if_pos h0]
    · rw [if_neg (by omega), if_pos h3, hf, andThen_next]
    · rw [if_neg (by omega), if_neg (by omega), if_pos hc]
    · rw [if_neg (by omega), if_neg (by omega), if_neg (by omega), if_neg (by omega), h]

/-- What a `FEED` that answers can have done: the byte was stored and the step is silent; nothing but `pos <- 0`, in the
noise-hunting or header state; the overflow at `CAP`; or the emission of the bytes stored, an un-held candidate. -/
theorem feedByte_eq_next {b : Byte} {s t : State} {r : FeedResult} (h : feedByte b s = .next (t, r)) :
    (storeByte b s = .next t ∧ r = silent ∧ feedStoresAt b s = some s.pos) ∨
    (s.pos ≤ 3 ∧ t = abandon s ∧ r = silent ∧ feedStoresAt b s = none) ∨
    (s.pos = s.cfg.cap ∧ t = abandon s ∧ r = overflowed ∧ feedStoresAt b s = none) ∨
    (∃ u f F, storeByte b s = .next u ∧ footerAt u = .next true ∧ family u = .next f ∧ inProgress u = .next F ∧
      hold f F = false ∧ t = abandon u ∧ r = emitted f F ∧ feedStoresAt b s = some s.pos) := by
  unfold feedByte at h
  obtain ⟨c, hc, h⟩ := andThen_eq_next.1 h
  have hst : feedStoresAt b s = c.storesAt s := by simp [feedStoresAt, hc]
  rw [hst]
  have hcase := feedCase_eq_next.1 hc
  cases c with
  | start | headerAccept | append | hold =>
    obtain ⟨u, hu, h⟩ := andThen_eq_next.1 h
    cases h
    exact .inl ⟨hu, rfl, rfl⟩
  | huntDiscard | headerMismatch =>
    cases h
    refine .inr (.inl ⟨?_, rfl, rfl, rfl⟩)
    rcases hcase with ⟨h0, -⟩ | ⟨-, h3, -⟩ | ⟨-, -, h⟩ | ⟨-, -, h⟩
    · omega
    · exact h3
    · cases h
    · obtain ⟨u, -, ⟨-, h⟩ | ⟨-, f, F, -, -, h⟩⟩ := bodyCase_eq_next.1 h
      · cases h
      · split at h <;> cases h
  | overflow =>
    cases h
    refine .inr (.inr (.inl ⟨?_, rfl, rfl, rfl⟩))
    rcases hcase with ⟨-, h⟩ | ⟨-, -, f, -, h⟩ | ⟨-, h, -⟩ | ⟨-, -, h⟩
    · split at h <;> cases h
    · split at h <;> cases h
    · exact h
    · obtain ⟨u, -, ⟨-, h⟩ | ⟨-, f, F, -, -, h⟩⟩ := bodyCase_eq_next.1 h
      · cases h
      · split at h <;> cases h
  | emit =>
    refine .inr (.inr (.inr ?_))
    obtain ⟨u, hu, h⟩ := andThen_eq_next.1 h
    obtain ⟨f, hf, h⟩ := andThen_eq_next.1 h
    obtain ⟨F, hF, h⟩ := andThen_eq_next.1 h
    cases h
    rcases hcase with ⟨-, h⟩ | ⟨-, -, f', -, h⟩ | ⟨-, -, h⟩ | ⟨-, -, h⟩
    · split at h <;> cases h
    · split at h <;> cases h
    · cases h
    · obtain ⟨u', hu', ⟨-, h⟩ | ⟨hm, f', F', hf', hF', h⟩⟩ := bodyCase_eq_next.1 h
      · cases h
      · rw [hu] at hu'
        cases hu'
        rw [hf] at hf'
        rw [hF] at hF'
        cases hf'
        cases hF'
        refine ⟨u, f, F, hu, hm, hf, hF, ?_, rfl, rfl, rfl⟩
        split at h
        · cases h
        · simpa using ‹¬ hold f F = true›

/-- A `FEED` step that answers keeps the result of its byte. -/
theorem execFeed_eq_next {b : Byte} {s t : State} :
    exec (.feed b) s = .next t ↔ ∃ u r, feedByte b s = .next (u, r) ∧ t = u.withResult (.fed r) := by
  simp only [exec, execFeed, andThen_eq_next]
  constructor
  · rintro ⟨⟨u, r⟩, h, ht⟩
    cases ht
    exact ⟨u, r, h, rfl⟩
  · rintro ⟨u, r, h, rfl⟩
    exact ⟨(u, r), h, rfl⟩

/-- No byte fed changes the instance or what has been offered. -/
theorem feedByte_cfg_inbox {b : Byte} {s t : State} {r : FeedResult} (h : feedByte b s = .next (t, r)) :
    t.cfg = s.cfg ∧ t.inbox = s.inbox := by
  rcases feedByte_eq_next h with ⟨hs, -⟩ | ⟨-, rfl, -⟩ | ⟨-, rfl, -⟩ | ⟨u, f, F, hs, -, -, -, -, rfl, -⟩
  · obtain ⟨-, rfl⟩ := storeByte_eq_next.1 hs
    exact ⟨rfl, rfl⟩
  · exact ⟨rfl, rfl⟩
  · exact ⟨rfl, rfl⟩
  · obtain ⟨-, rfl⟩ := storeByte_eq_next.1 hs
    exact ⟨rfl, rfl⟩

/-- A byte fed keeps the memory's canonical form. -/
theorem feedByte_wf {b : Byte} {s t : State} {r : FeedResult} (h : feedByte b s = .next (t, r)) (hw : s.buf.wf = true) :
    t.buf.wf = true := by
  rcases feedByte_eq_next h with ⟨hs, -⟩ | ⟨-, rfl, -⟩ | ⟨-, rfl, -⟩ | ⟨u, f, F, hs, -, -, -, -, rfl, -⟩
  · obtain ⟨-, rfl⟩ := storeByte_eq_next.1 hs
    exact Memory.wf_write _ _ hw
  · exact hw
  · exact hw
  · obtain ⟨-, rfl⟩ := storeByte_eq_next.1 hs
    exact Memory.wf_write _ _ hw

/-- A run of one byte more. -/
theorem run_cons_eq_next {b : Byte} {bs : Bytes} {s t : State} {rs : List FeedResult} :
    run (b :: bs) s = .next (t, rs) ↔
      ∃ u r rs', feedByte b s = .next (u, r) ∧ run bs u = .next (t, rs') ∧ rs = recordResult r rs' := by
  simp only [run, andThen_eq_next]
  constructor
  · rintro ⟨⟨u, r⟩, hu, ⟨v, rs'⟩, hv, h⟩
    cases h
    exact ⟨u, r, rs', hu, hv, rfl⟩
  · rintro ⟨u, r, rs', hu, hv, rfl⟩
    exact ⟨(u, r), hu, (t, rs'), hv, rfl⟩

@[simp] theorem run_nil (s : State) : run [] s = .next (s, []) := rfl

/-- The results of a run are those of its parts, in order. -/
theorem run_append_eq_next {as bs : Bytes} {s t u : State} {rs rs' : List FeedResult}
    (h1 : run as s = .next (t, rs)) (h2 : run bs t = .next (u, rs')) : run (as ++ bs) s = .next (u, rs ++ rs') := by
  induction as generalizing s rs with
  | nil =>
    rw [run_nil] at h1
    cases h1
    exact h2
  | cons a as ih =>
    obtain ⟨v, r, rs1, hv, hrun, rfl⟩ := run_cons_eq_next.1 h1
    refine run_cons_eq_next.2 ⟨v, r, rs1 ++ rs', hv, ih hrun, ?_⟩
    unfold recordResult
    split <;> rfl

/-- The first header bytes are `F4` and `FD` (R61). -/
theorem isSome_familyOf (b : Byte) : (familyOf b).isSome = true ↔ b = 0xF4 ∨ b = 0xFD := by
  unfold familyOf; split
  · simp_all
  · split <;> simp_all

/-- A byte fed keeps every listed index below `CAP`. -/
theorem feedByte_below {b : Byte} {s t : State} {r : FeedResult} (h : feedByte b s = .next (t, r))
    (hw : ∀ c ∈ s.buf, c.1 < s.cfg.cap) : ∀ c ∈ t.buf, c.1 < t.cfg.cap := by
  have key : ∀ u, storeByte b s = .next u → ∀ c ∈ u.buf, c.1 < u.cfg.cap := by
    intro u hs c hc
    obtain ⟨hlt, rfl⟩ := storeByte_eq_next.1 hs
    rcases Memory.mem_write hc with rfl | hc
    · exact hlt
    · exact hw c hc
  rcases feedByte_eq_next h with ⟨hs, -⟩ | ⟨-, rfl, -⟩ | ⟨-, rfl, -⟩ | ⟨u, f, F, hs, -, -, -, -, rfl, -⟩
  · exact key _ hs
  · exact hw
  · exact hw
  · exact fun c hc => key u hs c hc

/-- What a byte fed writes: at most `buf[pos]`, which exists, and only the byte itself. -/
theorem feedByte_writes {s t : State} {b : Byte} {r : FeedResult} (h : feedByte b s = .next (t, r)) :
    (∀ a, feedStoresAt b s ≠ some a → t.buf.read a = s.buf.read a) ∧
      (∀ a, feedStoresAt b s = some a → a = s.pos ∧ a < s.cfg.cap ∧ t.buf.read a = some b) := by
  rcases feedByte_eq_next h with ⟨hs, -, hst⟩ | ⟨-, rfl, -, hst⟩ | ⟨-, rfl, -, hst⟩ | ⟨u, f, F, hs, -, -, -, -, rfl, -, hst⟩
  · obtain ⟨hlt, rfl⟩ := storeByte_eq_next.1 hs
    rw [hst]
    refine ⟨fun a ha => Memory.read_write_other _ _ (fun h => ha (by rw [h])), fun a ha => ?_⟩
    cases ha; exact ⟨rfl, hlt, by simp⟩
  · rw [hst]; exact ⟨fun _ _ => rfl, fun a ha => by cases ha⟩
  · rw [hst]; exact ⟨fun _ _ => rfl, fun a ha => by cases ha⟩
  · obtain ⟨hlt, rfl⟩ := storeByte_eq_next.1 hs
    rw [hst]
    refine ⟨fun a ha => Memory.read_write_other _ _ (fun h => ha (by rw [h])), fun a ha => ?_⟩
    cases ha; exact ⟨rfl, hlt, by simp⟩

/-- A run keeps the memory's canonical form. -/
theorem run_wf {bs : Bytes} {s t : State} {rs : List FeedResult} (h : run bs s = .next (t, rs)) (hw : s.buf.wf = true) :
    t.buf.wf = true := by
  induction bs generalizing s rs with
  | nil => cases h; exact hw
  | cons b bs ih =>
    obtain ⟨u, r, rs', hu, hr, -⟩ := run_cons_eq_next.1 h
    exact ih hr (feedByte_wf hu hw)

/-- A reception that answers is a run of the frame's bytes. -/
theorem receiveFrame_eq_next {f : Family} {body : Bytes} {s t : State} :
    receiveFrame f body s = .next t ↔ ∃ u rs, run (frameOf f body) s = .next (u, rs) ∧ t = u.withResult (.ran rs) := by
  simp only [receiveFrame, andThen_eq_next]
  constructor
  · rintro ⟨⟨u, rs⟩, hu, h⟩
    cases h
    exact ⟨u, rs, hu, rfl⟩
  · rintro ⟨u, rs, hu, rfl⟩
    exact ⟨(u, rs), hu, rfl⟩

/-- Every operation keeps the memory's canonical form. -/
theorem exec_wf {i : Instr} {s t : State} (h : exec i s = .next t) (hw : s.buf.wf = true) : t.buf.wf = true := by
  cases i with
  | telemetry body | ack body =>
    obtain ⟨u, rs, hu, rfl⟩ := receiveFrame_eq_next.1 h
    exact (run_wf hu hw : u.buf.wf = true)
  | feed b =>
    obtain ⟨u, r, hu, rfl⟩ := execFeed_eq_next.1 h
    exact (feedByte_wf hu hw : u.buf.wf = true)
  | setBasic mn mx t' lvl =>
    simp only [exec, execSetBasic] at h
    split at h <;> cases h <;> exact hw
  | _ => cases h; first | exact hw | rfl

/-- The memory right after reset is in canonical form. -/
theorem reset_wf : State.reset.buf.wf = true := rfl

end Sys2Proof.Machine
end

