-- ==== Sys2Proof/Laws/Encoder.lean ====
section
/-! SUPPORT. What an `ENCODE` request answers. -/

namespace Sys2Proof.Machine

/-- An admitted request is answered with its frame (R120). -/
theorem encodeRequest_ok {op : BitVec 16} {p : Bytes} (ho : op.toNat ≤ 0x00FF) (hp : p.length ≤ 65533) :
    encodeRequest op p = .ok (buildFrame op p) := by
  simp [encodeRequest, Nat.not_lt.2 ho, Nat.not_lt.2 hp]

/-- Only an admitted request is answered with bytes, and they are its frame (R121). -/
theorem encodeRequest_eq_ok {op : BitVec 16} {p E : Bytes} :
    encodeRequest op p = .ok E ↔ op.toNat ≤ 0x00FF ∧ p.length ≤ 65533 ∧ E = buildFrame op p := by
  unfold encodeRequest
  split
  · simp; omega
  · split
    · simp; omega
    · simp only [EncodeResult.ok.injEq]
      constructor
      · rintro rfl; exact ⟨by omega, by omega, rfl⟩
      · rintro ⟨-, -, rfl⟩; rfl

/-- The frame of a request has twelve bytes more than its payload (R62). -/
@[simp] theorem buildFrame_length (op : BitVec 16) (p : Bytes) : (buildFrame op p).length = 12 + p.length := by
  simp [buildFrame, Family.hdr, Family.ftr, le16]; omega

/-- A request is answered and nothing but the result changes (R120). -/
theorem encodeStep_eq (op : BitVec 16) (p : Bytes) (s : State) :
    encodeStep op p s = .next { s with result := .encoded (encodeRequest op p) } := rfl

end Sys2Proof.Machine
end

