-- ==== Sys2Proof/Laws/FrameDecoder.lean ====
section
/-! SUPPORT. What the readings of the decoder context answer: one lemma per function. -/

namespace Sys2Proof.Machine

/-! ## Fields -/

theorem fieldBytes_eq_some (F g : Bytes) (i n : Nat) :
    fieldBytes F i n = some g ↔ i + n ≤ F.length ∧ g = (F.drop i).take n := by
  unfold fieldBytes
  split <;> simp_all [eq_comm]

theorem fieldBytes_eq_none (F : Bytes) (i n : Nat) : fieldBytes F i n = none ↔ F.length < i + n := by
  unfold fieldBytes
  split <;> simp_all

/-- The bytes of a field are those at its offsets. -/
theorem fieldBytes_getElem? {F g : Bytes} {i n : Nat} (h : fieldBytes F i n = some g) :
    g.length = n ∧ ∀ k, k < n → g[k]? = F[i + k]? := by
  obtain ⟨hl, rfl⟩ := (fieldBytes_eq_some ..).1 h
  refine ⟨by simp; omega, fun k hk => ?_⟩
  rw [List.getElem?_take_of_lt hk, List.getElem?_drop]

@[simp] theorem engineeringOnly_engineering {α : Type} (x : Option α) : engineeringOnly .engineering x = x := rfl
@[simp] theorem engineeringOnly_normal {α : Type} (x : Option α) : engineeringOnly .normal x = none := rfl

/-! ## The light level (R164) -/

/-- The percentage lies less than one from `raw * 100 / 255`. -/
theorem lightPercent_near (raw : Byte) :
    255 * (lightPercent raw).toNat ≤ raw.toNat * 100 + 254 ∧ raw.toNat * 100 ≤ 255 * (lightPercent raw).toNat + 254 := by
  have := raw.isLt
  unfold lightPercent
  split
  · rw [BitVec.toNat_ofNat, Nat.mod_eq_of_lt (by omega)]; omega
  · rw [BitVec.toNat_ofNat, Nat.mod_eq_of_lt (by omega)]; omega

/-- "0–100". -/
theorem lightPercent_le (raw : Byte) : (lightPercent raw).toNat ≤ 100 := by
  have := raw.isLt
  have := (lightPercent_near raw).1
  omega

/-- Where `raw * 100 / 255` is a whole number nothing is open. -/
theorem lightPercent_exact (raw : Byte) (p : Nat) (h : raw.toNat * 100 = 255 * p) : (lightPercent raw).toNat = p := by
  have := lightPercent_near raw
  omega

/-! ## Enumerations (R170) -/

theorem resolutionOf_toByte (r : Resolution) : resolutionOf r.toByte = some r := by cases r <;> rfl
theorem baudOf_toByte (r : BaudRate) : baudOf r.toByte = some r := by cases r <;> rfl

theorem baudOf_eq_some (b : Byte) (r : BaudRate) : baudOf b = some r ↔ r.toByte = b :=
  ⟨fun h => by simpa using List.find?_some h, fun h => h ▸ baudOf_toByte r⟩

theorem mem_all (r : BaudRate) : r ∈ BaudRate.all := by cases r <;> decide

theorem baudOfRate_sound {n : Nat} {r : BaudRate} (h : baudOfRate n = some r) : r.rate = n := by
  simpa using List.find?_some h

theorem baudOfRate_complete (r : BaudRate) : ∃ r', baudOfRate r.rate = some r' := by
  rw [← Option.isSome_iff_exists, baudOfRate, List.find?_isSome]
  exact ⟨r, mem_all r, by simp⟩

theorem baudOfRate_first_end : baudOfRate 9600 = some .baud1 := rfl
theorem baudOfRate_last_end : baudOfRate 460800 = some .baud8 := rfl

/-! ## The MAC report (R168) -/

/-- A successful MAC acknowledgment is reported: the sentinel as unknown, any other six bytes as an address. -/
theorem macReport_of_success {F : Bytes} (h : ackVerdict F = .success 0xA5) :
    macReport F = some (if (F.drop 10).take 6 = [0x08, 0x05, 0x04, 0x03, 0x02, 0x01] then .unknown
      else .address ((F.drop 10).take 6)) := by
  rw [macReport, if_pos h]

end Sys2Proof.Machine
end

