-- ==== Sys2Proof/Laws/Frames.lean ====
section
/-! SUPPORT. The vocabulary of the claims, each notion said once: footers of a buffer as a list, the body case, the
invariants under an update, the assembler over a list. -/

namespace Sys2Proof.Machine

/-- The footer test of a state is that of its bytes in progress (R96). -/
theorem footerAt_eq {s : State} {F : Bytes} {f : Family} (hF : inProgress s = .next F) (hf : family s = .next f) :
    footerAt s = .next (decide (EndsInFooter f F)) := by
  have hl := inProgress_length hF
  unfold footerAt
  split
  · have : ¬ 8 ≤ F.length := by omega
    simp [EndsInFooter, this]
  · have h8 : 8 ≤ F.length := by omega
    have hd := readCells_drop hF (k := s.pos - 4) (by omega)
    rw [show s.pos - (s.pos - 4) = 4 by omega] at hd
    have h8' : 8 ≤ s.pos := by omega
    simp [hf, hd, EndsInFooter, h8', hl]

/-- The case of a body state with room, from its bytes in progress. -/
theorem bodyCase_eq {s : State} {b : Byte} {F : Bytes} {f : Family} (h1 : 1 ≤ s.pos) (hroom : s.pos < s.cfg.cap)
    (hF : inProgress s = .next F) (hf : family s = .next f) :
    bodyCase b s = .next (if EndsInFooter f (F ++ [b]) then (if hold f (F ++ [b]) then .hold else .emit) else .append) := by
  have hs := storeByte_room (b := b) hroom
  have hF' := inProgress_storeByte hs hF
  have hf' := family_storeByte h1 hs hf
  have hft := footerAt_eq hF' hf'
  by_cases he : EndsInFooter f (F ++ [b])
  · rw [if_pos he]
    refine bodyCase_eq_next.2 ⟨_, hs, .inr ⟨by rw [hft, decide_eq_true he], f, _, hf', hF', rfl⟩⟩
  · rw [if_neg he]
    refine bodyCase_eq_next.2 ⟨_, hs, .inl ⟨by rw [hft, decide_eq_false he], rfl⟩⟩

/-- The case of `FEED` in the body state with room (R95, R98, R100). -/
theorem feedCase_body {s : State} {b : Byte} {F : Bytes} {f : Family} (h4 : 4 ≤ s.pos) (hroom : s.pos < s.cfg.cap)
    (hF : inProgress s = .next F) (hf : family s = .next f) :
    feedCase b s = .next (if EndsInFooter f (F ++ [b]) then (if hold f (F ++ [b]) then .hold else .emit) else .append) :=
  feedCase_eq_next.2 (.inr (.inr (.inr ⟨h4, hroom, bodyCase_eq (by omega) hroom hF hf⟩)))

/-- Fewer than 8 bytes end in no footer (R96). -/
theorem not_endsInFooter_of_short {f : Family} {F : Bytes} (h : F.length < 8) : ¬ EndsInFooter f F := fun he => by
  have := he.1; omega

/-- A footer at the end of a prefix, byte by byte. -/
theorem endsInFooter_take {f : Family} {W : Bytes} {k : Nat} (hk : k ≤ W.length) :
    EndsInFooter f (W.take k) ↔ 8 ≤ k ∧ W[k - 4]? = f.ftr[0]? ∧ W[k - 3]? = f.ftr[1]? ∧ W[k - 2]? = f.ftr[2]? ∧ W[k - 1]? = f.ftr[3]? := by
  have hl : (W.take k).length = k := by simp; omega
  simp only [EndsInFooter, hl]
  constructor
  · rintro ⟨h8, h⟩
    refine ⟨h8, ?_⟩
    rw [← h]; simp only [List.getElem?_drop]
    have e : ∀ i, i < 4 → (W.take k)[k - 4 + i]? = W[k - 4 + i]? := fun i hi => List.getElem?_take_of_lt (by omega)
    rw [e 0 (by omega), e 1 (by omega), e 2 (by omega), e 3 (by omega)]
    refine ⟨rfl, ?_, ?_, ?_⟩ <;> congr 1 <;> omega
  · rintro ⟨h8, a, b, c, d⟩
    refine ⟨h8, ?_⟩
    apply List.ext_getElem?
    intro i
    rw [List.getElem?_drop]
    match i with
    | 0 => rw [List.getElem?_take_of_lt (by omega)]; simpa using a
    | 1 => rw [List.getElem?_take_of_lt (by omega), ← b]; congr 1; omega
    | 2 => rw [List.getElem?_take_of_lt (by omega), ← c]; congr 1; omega
    | 3 => rw [List.getElem?_take_of_lt (by omega), ← d]; congr 1; omega
    | i + 4 => rw [List.getElem?_eq_none (by omega), List.getElem?_eq_none (by simp)]

/-- The first four bytes of a frame in progress are the header of its family. -/
theorem StartsLike.take_four {f : Family} {G : Bytes} (h : StartsLike f G) (h4 : 4 ≤ G.length) : G.take 4 = f.hdr := by
  apply List.ext_getElem?
  intro i
  by_cases hi : i < 4
  · rw [List.getElem?_take_of_lt hi]; exact h.2 i hi (by omega)
  · rw [List.getElem?_eq_none (by simp; omega), List.getElem?_eq_none (by simp; omega)]

/-- The invariants depend on the instance, the cursor and the buffer alone. -/
theorem Inv.of_eq {s t : State} (h : Inv s) (h1 : t.cfg = s.cfg) (h2 : t.pos = s.pos) (h3 : t.buf = s.buf) : Inv t := by
  obtain ⟨p1, p2, p3, F, hF, p4⟩ := h
  exact ⟨by rw [h1, h2]; exact p1, by rw [h3]; exact p2, by rw [h1, h3]; exact p3, F, by rw [← hF]; exact inProgress_congr h1 h2 h3, p4⟩

/-- Keeping a result keeps the invariants. -/
theorem inv_withResult {s : State} (h : Inv s) (r : StepResult) : Inv (s.withResult r) := by
  obtain ⟨h1, h2, h3, F, hF, h4⟩ := h
  exact ⟨h1, h2, h3, F, hF ▸ inProgress_congr rfl rfl rfl, h4⟩

/-- A state that meets the invariants can be read. -/
theorem readable_of_inv {s : State} (h : Inv s) : ∃ F, Readable s F ∧ FrameInProgress F := by
  obtain ⟨F, hF, hfr⟩ := h.frame
  refine ⟨F, ⟨h.posLe, hF, ?_⟩, hfr⟩
  by_cases h0 : s.pos = 0
  · exact .inl h0
  · refine .inr ?_
    have hl := inProgress_length hF
    rcases hfr with rfl | ⟨f, ⟨hne, hs⟩, -⟩
    · simp at hl; omega
    · refine ⟨f, (family_of_inProgress hF (by omega)).2 ?_⟩
      rw [List.head?_eq_getElem?, hs 0 (by omega) (by omega), ← List.head?_eq_getElem?]
      exact familyOf_hdr_head f

/-- The results of a run over a list are those of its parts, in order. -/
theorem listRun_append (cap : Nat) (F as bs : Bytes) :
    listRun cap F (as ++ bs) =
      ((listRun cap (listRun cap F as).1 bs).1, (listRun cap F as).2 ++ (listRun cap (listRun cap F as).1 bs).2) := by
  induction as generalizing F with
  | nil => simp [listRun]
  | cons a as ih =>
    simp only [List.cons_append, listRun, ih]
    unfold recordResult
    split <;> rfl

end Sys2Proof.Machine
end

