-- ==== Sys2Proof/Laws/PerInstr.lean ====
section
/-! SUPPORT. One lemma per operation: the shape of its word. -/

namespace Sys2Proof.Laws.WordShape

/-- The word of an operation is the frame of an opcode and a payload (formats `CMD_FIXED`, `CMD_VAR`), a frame of a
family (`RX_VAR`), or at most one byte (`OP_BYTE`, `OP_NONE`) (R74). -/
def Statement (i : Instr) : Prop :=
  (∃ op p, encode i = commandWord op p) ∨ (∃ (f : Family) (body : Bytes), encode i = f.hdr ++ body ++ f.ftr) ∨
    (encode i).length ≤ 1

theorem cfgEnable : Statement .cfgEnable := .inl ⟨0xFF, [0x01, 0x00], rfl⟩
theorem cfgDisable : Statement .cfgDisable := .inl ⟨0xFE, [], rfl⟩
theorem queryMac : Statement .queryMac := .inl ⟨0xA5, [0x01, 0x00], rfl⟩
theorem btSetOn : Statement .btSetOn := .inl ⟨0xA4, [0x01, 0x00], rfl⟩
theorem btSetOff : Statement .btSetOff := .inl ⟨0xA4, [0x00, 0x00], rfl⟩
theorem setBasic (mn mx : Byte) (t : BitVec 16) (lvl : Byte) : Statement (.setBasic mn mx t lvl) :=
  .inl ⟨0x02, [mn, mx + 1, t.extractLsb' 0 8, t.extractLsb' 8 8, lvl], by simp [Sys2Proof.encode, commandWord, le16]⟩
theorem setMoveSens (g : Gates) : Statement (.setMoveSens g) :=
  .inl ⟨0x03, g.bytes, by simp [Sys2Proof.encode, commandWord, le16, g.len]⟩
theorem setStillSens (g : Gates) : Statement (.setStillSens g) :=
  .inl ⟨0x04, g.bytes, by simp [Sys2Proof.encode, commandWord, le16, g.len]⟩
theorem queryVersion (p : Bytes) : Statement (.queryVersion p) := .inl ⟨_, p, rfl⟩
theorem queryResolution (p : Bytes) : Statement (.queryResolution p) := .inl ⟨_, p, rfl⟩
theorem setResolution (p : Bytes) : Statement (.setResolution p) := .inl ⟨_, p, rfl⟩
theorem queryBasic (p : Bytes) : Statement (.queryBasic p) := .inl ⟨_, p, rfl⟩
theorem queryMoveSens (p : Bytes) : Statement (.queryMoveSens p) := .inl ⟨_, p, rfl⟩
theorem queryStillSens (p : Bytes) : Statement (.queryStillSens p) := .inl ⟨_, p, rfl⟩
theorem calStart (p : Bytes) : Statement (.calStart p) := .inl ⟨_, p, rfl⟩
theorem calQuery (p : Bytes) : Statement (.calQuery p) := .inl ⟨_, p, rfl⟩
theorem setBaud (p : Bytes) : Statement (.setBaud p) := .inl ⟨_, p, rfl⟩
theorem factoryReset (p : Bytes) : Statement (.factoryReset p) := .inl ⟨_, p, rfl⟩
theorem restart (p : Bytes) : Statement (.restart p) := .inl ⟨_, p, rfl⟩
theorem opA9 (p : Bytes) : Statement (.opA9 p) := .inl ⟨_, p, rfl⟩
theorem encode (op : BitVec 16) (p : Bytes) : Statement (.encode op p) := .inl ⟨op.setWidth 8, p, rfl⟩
theorem telemetry (body : Bytes) : Statement (.telemetry body) := .inr (.inl ⟨.telemetry, body, rfl⟩)
theorem ack (body : Bytes) : Statement (.ack body) := .inr (.inl ⟨.ack, body, rfl⟩)
theorem feed (b : Byte) : Statement (.feed b) := .inr (.inr (by simp [Sys2Proof.encode]))
theorem reset : Statement .reset := .inr (.inr (by simp [Sys2Proof.encode]))

end Sys2Proof.Laws.WordShape
end

