-- ==== Sys2Proof/Laws/Step.lean ====
section
/-! SUPPORT. What a step can do, said once: the next operation is run, a word of no operation is refused, or the
step is idle. -/

namespace Sys2Proof.Machine

theorem step_idle {s : State} (h : s.inbox = []) : step s = .next (s.withResult .nothing) := by
  simp only [step, fetch, h]

theorem step_operation {s : State} {o : Offer} {rest : List Offer} {i : Instr} (h : s.inbox = o :: rest)
    (ho : o.operation = .ok i) : step s = exec i { s with inbox := rest } := by
  simp only [step, fetch, h, ho]

theorem step_no_operation {s : State} {o : Offer} {rest : List Offer} {e : DecodeError} (h : s.inbox = o :: rest)
    (ho : o.operation = .error e) : step s = .refused (.noSuchOperation e) := by
  simp only [step, fetch, h, ho]

/-- A step that answers was idle or ran the operation of the oldest offer. -/
theorem step_eq_next {s t : State} (h : step s = .next t) :
    (s.inbox = [] ∧ t = s.withResult .nothing) ∨
      ∃ o rest i, s.inbox = o :: rest ∧ o.operation = .ok i ∧ exec i { s with inbox := rest } = .next t := by
  cases hb : s.inbox with
  | nil => rw [step_idle hb] at h; cases h; exact .inl ⟨rfl, rfl⟩
  | cons o rest =>
    cases ho : o.operation with
    | ok i => rw [step_operation hb ho] at h; exact .inr ⟨o, rest, i, rfl, ho, h⟩
    | error e => rw [step_no_operation hb ho] at h; cases h

/-- Only a word can stand for no operation. -/
theorem operation_eq_error {o : Offer} {e : DecodeError} (h : o.operation = .error e) :
    ∃ w, o = .word w ∧ decode w = .error e := by
  cases o with
  | word w => exact ⟨w, rfl, h⟩
  | call i => cases h

end Sys2Proof.Machine
end

