-- ==== Sys2Proof/Tests/Slice0.lean ====
section
/-! SUPPORT. Small tests against the spec's words and vectors (95_test_vectors.md), and a witness for the hypotheses of
every statement that has any. -/

set_option maxRecDepth 8000

namespace Sys2Proof.Tests

open Sys2Proof Sys2Proof.Machine

/-! ## Small states -/

def cellsFrom : Nat → Bytes → Memory
  | _, [] => []
  | i, b :: bs => (i, b) :: cellsFrom (i + 1) bs

/-- The state of capacity `cfg` with the bytes `F` in progress. -/
def holding (cfg : Config) (F : Bytes) : State :=
  { cfg := cfg, pos := F.length, buf := cellsFrom 0 F, inbox := [], result := .nothing }

def cap8 : Config := ⟨8, by decide⟩
def cap12 : Config := ⟨12, by decide⟩
def cap17 : Config := ⟨17, by decide⟩
def cap18 : Config := ⟨18, by decide⟩
def cap20 : Config := ⟨20, by decide⟩
def cap64 : Config := ⟨64, by decide⟩

/-- What a step answers: cursor and result. -/
def answer : Res State → Option (Nat × StepResult)
  | .next t => some (t.pos, t.result)
  | .fault _ => none
  | .refused _ => none

/-- One cell after a step. -/
def cellAfter (i : Nat) : Res State → Option Byte
  | .next t => t.buf.read i
  | .fault _ => none
  | .refused _ => none

/-- What the decoder answers. -/
def decoded (w : Bytes) : Option Instr :=
  match decode w with
  | .ok i => some i
  | .error _ => none

def quiet : StepResult := .fed { emit := none, log := none }
def logged : StepResult := .fed { emit := none, log := some .overflow }

/-! ## Well-formedness: each check refuses an ill-formed term -/

theorem test_maxGate_255_is_illFormed : Instr.wellFormed (.setBasic 0 255 0 0) = false := by decide
theorem test_maxGate_254_is_wellFormed : Instr.wellFormed (.setBasic 0 254 0 0) = true := by decide
theorem test_opcode_above_FF_is_illFormed : Instr.wellFormed (.encode 0x0100 []) = false := by decide
theorem test_opcode_FF_is_wellFormed : Instr.wellFormed (.encode 0x00FF []) = true := by decide

/-- 65534 bytes are too many for every payload of the caller's. -/
theorem test_payload_of_65534_is_illFormed (p : Bytes) (hp : p.length = 65534) (i : Instr)
    (h : i ∈ [Instr.queryVersion p, .queryResolution p, .setResolution p, .queryBasic p, .queryMoveSens p,
      .queryStillSens p, .calStart p, .calQuery p, .setBaud p, .factoryReset p, .restart p, .opA9 p, .encode 0xFF p]) :
    i.wellFormed = false := by
  have hf : payloadFits p = false := by rw [payloadFits, hp]; decide
  simp only [List.mem_cons, List.not_mem_nil, or_false] at h
  rcases h with rfl | rfl | rfl | rfl | rfl | rfl | rfl | rfl | rfl | rfl | rfl | rfl | rfl <;> simp [Instr.wellFormed, hf]

theorem long_payload : (List.replicate 65534 (0 : Byte)).length = 65534 := List.length_replicate
theorem longest_payload : (List.replicate 65533 (0 : Byte)).length = 65533 := List.length_replicate

theorem test_payload_of_65533_is_wellFormed (p : Bytes) (hp : p.length = 65533) :
    Instr.wellFormed (.encode 0xFF p) = true := by
  rw [Instr.wellFormed, payloadFits, hp]; decide

theorem test_capacity_7_refused : Config.create 7 = none := by decide
theorem test_capacity_8_created : Config.create 8 = some cap8 := by decide

/-- A gate array of 13 bytes is no array. -/
theorem test_gates_of_13_bytes_refused : gatesOf (List.replicate 13 0x32) = none := by decide

/-! ## Decoding: a word of every row, written out from spec/opcode_table.json and 30_encoding.md -/

theorem test_decode_CFG_ENABLE :
    decoded [0xFD, 0xFC, 0xFB, 0xFA, 0x04, 0x00, 0xFF, 0x00, 0x01, 0x00, 0x04, 0x03, 0x02, 0x01] = some (.cfgEnable) := by decide
theorem test_decode_CFG_DISABLE :
    decoded [0xFD, 0xFC, 0xFB, 0xFA, 0x02, 0x00, 0xFE, 0x00, 0x04, 0x03, 0x02, 0x01] = some (.cfgDisable) := by decide
theorem test_decode_QUERY_MAC :
    decoded [0xFD, 0xFC, 0xFB, 0xFA, 0x04, 0x00, 0xA5, 0x00, 0x01, 0x00, 0x04, 0x03, 0x02, 0x01] = some (.queryMac) := by decide
theorem test_decode_BT_SET_on :
    decoded [0xFD, 0xFC, 0xFB, 0xFA, 0x04, 0x00, 0xA4, 0x00, 0x01, 0x00, 0x04, 0x03, 0x02, 0x01] = some (.btSetOn) := by decide
theorem test_decode_BT_SET_off :
    decoded [0xFD, 0xFC, 0xFB, 0xFA, 0x04, 0x00, 0xA4, 0x00, 0x00, 0x00, 0x04, 0x03, 0x02, 0x01] = some (.btSetOff) := by decide
theorem test_decode_SET_BASIC :
    decoded [0xFD, 0xFC, 0xFB, 0xFA, 0x07, 0x00, 0x02, 0x00, 0x00, 0x0E, 0x2C, 0x01, 0x01, 0x04, 0x03, 0x02, 0x01] = some (.setBasic 0 13 300 1) := by decide
theorem test_decode_SET_MOVE_SENS :
    decoded [0xFD, 0xFC, 0xFB, 0xFA, 0x10, 0x00, 0x03, 0x00, 0x32, 0x28, 0x1E, 0x14, 0x0A, 0x05, 0x03, 0x02, 0x01, 0x0A, 0x0B, 0x0C, 0x0D, 0x0E, 0x04, 0x03, 0x02, 0x01] = some (.setMoveSens ⟨[0x32, 0x28, 0x1E, 0x14, 0x0A, 0x05, 0x03, 0x02, 0x01, 0x0A, 0x0B, 0x0C, 0x0D, 0x0E], rfl⟩) := by decide
theorem test_decode_SET_STILL_SENS :
    decoded [0xFD, 0xFC, 0xFB, 0xFA, 0x10, 0x00, 0x04, 0x00, 0x32, 0x28, 0x1E, 0x14, 0x0A, 0x05, 0x03, 0x02, 0x01, 0x0A, 0x0B, 0x0C, 0x0D, 0x0E, 0x04, 0x03, 0x02, 0x01] = some (.setStillSens ⟨[0x32, 0x28, 0x1E, 0x14, 0x0A, 0x05, 0x03, 0x02, 0x01, 0x0A, 0x0B, 0x0C, 0x0D, 0x0E], rfl⟩) := by decide
theorem test_decode_QUERY_VERSION :
    decoded [0xFD, 0xFC, 0xFB, 0xFA, 0x04, 0x00, 0xA0, 0x00, 0x07, 0x09, 0x04, 0x03, 0x02, 0x01] = some (.queryVersion [0x07, 0x09]) := by decide
theorem test_decode_QUERY_RESOLUTION :
    decoded [0xFD, 0xFC, 0xFB, 0xFA, 0x04, 0x00, 0x11, 0x00, 0x07, 0x09, 0x04, 0x03, 0x02, 0x01] = some (.queryResolution [0x07, 0x09]) := by decide
theorem test_decode_SET_RESOLUTION :
    decoded [0xFD, 0xFC, 0xFB, 0xFA, 0x04, 0x00, 0x01, 0x00, 0x07, 0x09, 0x04, 0x03, 0x02, 0x01] = some (.setResolution [0x07, 0x09]) := by decide
theorem test_decode_QUERY_BASIC :
    decoded [0xFD, 0xFC, 0xFB, 0xFA, 0x04, 0x00, 0x12, 0x00, 0x07, 0x09, 0x04, 0x03, 0x02, 0x01] = some (.queryBasic [0x07, 0x09]) := by decide
theorem test_decode_QUERY_MOVE_SENS :
    decoded [0xFD, 0xFC, 0xFB, 0xFA, 0x04, 0x00, 0x13, 0x00, 0x07, 0x09, 0x04, 0x03, 0x02, 0x01] = some (.queryMoveSens [0x07, 0x09]) := by decide
theorem test_decode_QUERY_STILL_SENS :
    decoded [0xFD, 0xFC, 0xFB, 0xFA, 0x04, 0x00, 0x14, 0x00, 0x07, 0x09, 0x04, 0x03, 0x02, 0x01] = some (.queryStillSens [0x07, 0x09]) := by decide
theorem test_decode_CAL_START :
    decoded [0xFD, 0xFC, 0xFB, 0xFA, 0x04, 0x00, 0x0B, 0x00, 0x07, 0x09, 0x04, 0x03, 0x02, 0x01] = some (.calStart [0x07, 0x09]) := by decide
theorem test_decode_CAL_QUERY :
    decoded [0xFD, 0xFC, 0xFB, 0xFA, 0x04, 0x00, 0x1B, 0x00, 0x07, 0x09, 0x04, 0x03, 0x02, 0x01] = some (.calQuery [0x07, 0x09]) := by decide
theorem test_decode_SET_BAUD :
    decoded [0xFD, 0xFC, 0xFB, 0xFA, 0x04, 0x00, 0xA1, 0x00, 0x07, 0x09, 0x04, 0x03, 0x02, 0x01] = some (.setBaud [0x07, 0x09]) := by decide
theorem test_decode_FACTORY_RESET :
    decoded [0xFD, 0xFC, 0xFB, 0xFA, 0x04, 0x00, 0xA2, 0x00, 0x07, 0x09, 0x04, 0x03, 0x02, 0x01] = some (.factoryReset [0x07, 0x09]) := by decide
theorem test_decode_RESTART :
    decoded [0xFD, 0xFC, 0xFB, 0xFA, 0x04, 0x00, 0xA3, 0x00, 0x07, 0x09, 0x04, 0x03, 0x02, 0x01] = some (.restart [0x07, 0x09]) := by decide
theorem test_decode_OP_A9 :
    decoded [0xFD, 0xFC, 0xFB, 0xFA, 0x04, 0x00, 0xA9, 0x00, 0x07, 0x09, 0x04, 0x03, 0x02, 0x01] = some (.opA9 [0x07, 0x09]) := by decide
theorem test_decode_ENCODE :
    decoded [0xFD, 0xFC, 0xFB, 0xFA, 0x03, 0x00, 0x55, 0x00, 0xAA, 0x04, 0x03, 0x02, 0x01] = some (.encode 0x0055 [0xAA]) := by decide
theorem test_decode_TELEMETRY :
    decoded [0xF4, 0xF3, 0xF2, 0xF1, 0x0D, 0x00, 0xF8, 0xF7, 0xF6, 0xF5] = some (.telemetry [0x0D, 0x00]) := by decide
theorem test_decode_ACK :
    decoded [0xFD, 0xFC, 0xFB, 0xFA, 0x08, 0x00, 0xFF, 0x01, 0x00, 0x00, 0x01, 0x00, 0x40, 0x00, 0x04, 0x03, 0x02, 0x01] = some (.ack [0x08, 0x00, 0xFF, 0x01, 0x00, 0x00, 0x01, 0x00, 0x40, 0x00]) := by decide
theorem test_decode_FEED :
    decoded [0xFD] = some (.feed 0xFD) := by decide
theorem test_decode_RESET :
    decoded [] = some (.reset) := by decide

/-- A length field that does not fit is no command (R60): the frame is a reception. -/
theorem test_decode_wrong_length_is_ACK :
    decoded [0xFD, 0xFC, 0xFB, 0xFA, 0x05, 0x00, 0xFF, 0x00, 0x01, 0x00, 0x04, 0x03, 0x02, 0x01] = some (.ack [0x05, 0x00, 0xFF, 0x00, 0x01, 0x00]) := by decide
/-- `SET_BASIC` with a second payload byte of 0 stands for the `mx` that is refused (log 12). -/
theorem test_decode_SET_BASIC_mx_byte_0 :
    decoded [0xFD, 0xFC, 0xFB, 0xFA, 0x07, 0x00, 0x02, 0x00, 0x00, 0x00, 0x2C, 0x01, 0x01, 0x04, 0x03, 0x02, 0x01] = some (.setBasic 0 255 300 1) := by decide
theorem test_decode_two_bytes_refused : decode [0xF4, 0xF3] = .error .noRowOfThisLength := rfl
theorem test_decode_mixed_frame_refused :
    decode [0xF4, 0xF3, 0xF2, 0xF1, 0x04, 0x03, 0x02, 0x01] = .error .notAFrame := rfl
theorem test_table_has_25_rows : opcodeTable.length = 25 := by decide
theorem test_first_row_of_BT_SET_off :
    (firstRow [0xFD, 0xFC, 0xFB, 0xFA, 0x04, 0x00, 0xA4, 0x00, 0x00, 0x00, 0x04, 0x03, 0x02, 0x01]).map Row.mnemonic = some "BT_SET_off" := by decide
theorem test_encode_SET_BASIC :
    encode (.setBasic 1 12 5 0) = [0xFD, 0xFC, 0xFB, 0xFA, 0x07, 0x00, 0x02, 0x00, 0x01, 0x0D, 0x05, 0x00, 0x00, 0x04, 0x03, 0x02, 0x01] := by decide

/-! ## A word given as a number: bit 0 is the least significant bit of the first byte -/

theorem test_table_word_RESET : decodeTableWord 0 0 = some .reset := by decide
theorem test_table_word_FEED : decodeTableWord 8 0xF4 = some (.feed 0xF4) := by decide
theorem test_table_word_CFG_DISABLE : decodeTableWord 96 0x0102030400FE0002FAFBFCFD = some .cfgDisable := by decide
theorem test_table_word_CAL_QUERY_lead : decodeTableWord 64 0x001B0000FAFBFCFD = some (.calQuery []) := by decide
theorem test_table_word_TELEMETRY_lead : decodeTableWord 32 0xF1F2F3F4 = some (.telemetry []) := by decide
theorem test_table_word_ACK_lead : decodeTableWord 32 0xFAFBFCFD = some (.ack []) := by decide
theorem test_fetch_word_is_run_next :
    answer (step (State.reset.withFetchWord 64 0x00A00000FAFBFCFD)) =
      some (0, .encoded (.ok [0xFD, 0xFC, 0xFB, 0xFA, 0x02, 0x00, 0xA0, 0x00, 0x04, 0x03, 0x02, 0x01])) := by decide

/-! ## Requests that have no word of their own are offered as calls (R187, R224, D29) -/

theorem test_step_refused_opcode :
    answer (step (offerNext State.reset (.call (.encode 0x0100 [])))) =
      some (0, .encoded (.refused .opcodeHighByte)) := by decide
theorem test_step_raw_ENCODE_02_with_second_byte_0 :
    answer (step (offerNext State.reset (.call (.encode 0x02 [0x00, 0x00, 0x05, 0x00, 0x00])))) =
      some (0, .encoded (.ok [0xFD, 0xFC, 0xFB, 0xFA, 0x07, 0x00, 0x02, 0x00, 0x00, 0x00, 0x05, 0x00, 0x00,
        0x04, 0x03, 0x02, 0x01])) := by decide

/-! ## Single `FEED` steps (95_test_vectors.md, S1 to S11) -/

theorem test_feed_start_S1 :
    answer (exec (.feed 0xF4) (holding cap64 [])) = some (1, quiet) := by decide
theorem test_feed_hunt_S3 :
    answer (exec (.feed 0xF3) (holding cap64 [])) = some (0, quiet) := by decide
theorem test_feed_accept_S5 : cellAfter 1 (exec (.feed 0xF3) (holding cap64 [0xF4])) = some 0xF3 := by decide
theorem test_feed_mismatch_S6 :
    answer (exec (.feed 0xFC) (holding cap64 [0xF4])) = some (0, quiet) := by decide
theorem test_feed_accept_S7 :
    answer (exec (.feed 0xFA) (holding cap64 [0xFD, 0xFC, 0xFB])) = some (4, quiet) := by decide
theorem test_feed_mismatch_is_not_reconsidered_S8 :
    answer (exec (.feed 0xFD) (holding cap64 [0xFD, 0xFC, 0xFB])) = some (0, quiet) := by decide
theorem test_feed_append_S9 :
    answer (exec (.feed 0xF4) (holding cap64 [0xF4, 0xF3, 0xF2, 0xF1])) = some (5, quiet) := by decide
theorem test_feed_emit_S10 :
    answer (exec (.feed 0xF5) (holding cap64 [0xF4, 0xF3, 0xF2, 0xF1, 0xF8, 0xF7, 0xF6])) = some (0, .fed { emit := some (.telemetry, [0xF4, 0xF3, 0xF2, 0xF1, 0xF8, 0xF7, 0xF6, 0xF5]), log := none }) := by decide
theorem test_feed_overflow_S11 :
    answer (exec (.feed 0xF5) (holding cap8 [0xF4, 0xF3, 0xF2, 0xF1, 0x00, 0xF8, 0xF7, 0xF6])) = some (0, logged) := by decide
theorem test_feed_hold_V9 :
    answer (exec (.feed 0x01) (holding cap64 [0xFD, 0xFC, 0xFB, 0xFA, 0x0A, 0x00, 0xA5, 0x01, 0x00, 0x00, 0x08, 0x05, 0x04, 0x03, 0x02])) = some (16, quiet) := by decide
theorem test_feed_other_family_footer_is_data_V6 :
    answer (exec (.feed 0x01) (holding cap64 [0xF4, 0xF3, 0xF2, 0xF1, 0x04, 0x03, 0x02])) = some (8, quiet) := by decide
theorem test_reset_drops_the_frame_V26 :
    answer (exec .reset (holding cap64 [0xF4, 0xF3, 0xF2, 0xF1, 0x0D, 0x00])) = some (0, .nothing) := by decide
theorem test_reset_clears_the_cells : cellAfter 0 (exec .reset (holding cap64 [0xF4])) = none := by decide

/-! ## The hold predicate (H1 to H8) -/

theorem test_hold_H1 : hold .ack [0xFD, 0xFC, 0xFB, 0xFA, 0x0A, 0x00, 0xA5, 0x01, 0x00, 0x00, 0x08, 0x05, 0x04, 0x03, 0x02, 0x01] = true := by decide
theorem test_hold_H2 : hold .ack [0xFD, 0xFC, 0xFB, 0xFA, 0x0A, 0x00, 0xA5, 0x01, 0x00, 0x00, 0x08, 0x05, 0x04, 0x03, 0x02, 0x01, 0x04, 0x03, 0x02, 0x01] = false := by decide
theorem test_hold_H3 : hold .ack [0xFD, 0xFC, 0xFB, 0xFA, 0x04, 0x03, 0x02, 0x01] = false := by decide
theorem test_hold_H4 : hold .ack [0xFD, 0xFC, 0xFB, 0xFA, 0x00, 0xA5, 0x01, 0x00, 0x00, 0x04, 0x03, 0x02, 0x01] = false := by decide
theorem test_hold_H5 : hold .ack [0xFD, 0xFC, 0xFB, 0xFA, 0x02, 0x00, 0xA5, 0x01, 0x00, 0x00, 0x04, 0x03, 0x02, 0x01] = true := by decide
theorem test_hold_H6 : hold .ack [0xFD, 0xFC, 0xFB, 0xFA, 0x02, 0x00, 0xA0, 0x01, 0x00, 0x00, 0x04, 0x03, 0x02, 0x01] = false := by decide
theorem test_hold_H7 : hold .telemetry [0xF4, 0xF3, 0xF2, 0xF1, 0x0A, 0x00, 0xA5, 0x01, 0x00, 0x00, 0xF8, 0xF7, 0xF6, 0xF5] = false := by decide
theorem test_hold_H8 : hold .ack [0xFD, 0xFC, 0xFB, 0xFA, 0x0A, 0x00, 0xA5, 0x02, 0x00, 0x00, 0x04, 0x03, 0x02, 0x01] = false := by decide

/-! ## A frame received as a whole, in one step -/

theorem test_telemetry_minimum_V1 :
    answer (exec (.telemetry []) (holding cap64 [])) =
      some (0, .ran [{ emit := some (.telemetry, [0xF4, 0xF3, 0xF2, 0xF1, 0xF8, 0xF7, 0xF6, 0xF5]), log := none }]) := by decide
theorem test_telemetry_after_false_start_is_lost_V5 :
    answer (exec (.telemetry []) (holding cap64 [0xF4])) =
      some (0, .ran []) := by decide
theorem test_ack_mac_sentinel_V9 :
    answer (exec (.ack [0x0A, 0x00, 0xA5, 0x01, 0x00, 0x00, 0x08, 0x05, 0x04, 0x03, 0x02, 0x01]) (holding cap64 [])) =
      some (0, .ran [{ emit := some (.ack, [0xFD, 0xFC, 0xFB, 0xFA, 0x0A, 0x00, 0xA5, 0x01, 0x00, 0x00, 0x08, 0x05, 0x04, 0x03, 0x02, 0x01, 0x04, 0x03, 0x02, 0x01]), log := none }]) := by decide
theorem test_ack_overflow_V15 :
    answer (exec (.ack [0x08, 0x00, 0xFF, 0x01, 0x00, 0x00, 0x01, 0x00, 0x40, 0x00]) (holding cap12 [])) =
      some (0, .ran [{ emit := none, log := some .overflow }]) := by decide

/-! ## Requests (X1 to X18) -/

theorem test_CFG_ENABLE_X1 :
    answer (exec (.cfgEnable) State.reset) = some (0, .encoded (.ok [0xFD, 0xFC, 0xFB, 0xFA, 0x04, 0x00, 0xFF, 0x00, 0x01, 0x00, 0x04, 0x03, 0x02, 0x01])) := by decide
theorem test_CFG_DISABLE_X2 :
    answer (exec (.cfgDisable) State.reset) = some (0, .encoded (.ok [0xFD, 0xFC, 0xFB, 0xFA, 0x02, 0x00, 0xFE, 0x00, 0x04, 0x03, 0x02, 0x01])) := by decide
theorem test_QUERY_MAC_X3 :
    answer (exec (.queryMac) State.reset) = some (0, .encoded (.ok [0xFD, 0xFC, 0xFB, 0xFA, 0x04, 0x00, 0xA5, 0x00, 0x01, 0x00, 0x04, 0x03, 0x02, 0x01])) := by decide
theorem test_BT_SET_on_X4 :
    answer (exec (.btSetOn) State.reset) = some (0, .encoded (.ok [0xFD, 0xFC, 0xFB, 0xFA, 0x04, 0x00, 0xA4, 0x00, 0x01, 0x00, 0x04, 0x03, 0x02, 0x01])) := by decide
theorem test_BT_SET_off_X5 :
    answer (exec (.btSetOff) State.reset) = some (0, .encoded (.ok [0xFD, 0xFC, 0xFB, 0xFA, 0x04, 0x00, 0xA4, 0x00, 0x00, 0x00, 0x04, 0x03, 0x02, 0x01])) := by decide
theorem test_SET_BASIC_X7 :
    answer (exec (.setBasic 0 13 300 1) State.reset) = some (0, .encoded (.ok [0xFD, 0xFC, 0xFB, 0xFA, 0x07, 0x00, 0x02, 0x00, 0x00, 0x0E, 0x2C, 0x01, 0x01, 0x04, 0x03, 0x02, 0x01])) := by decide
theorem test_SET_BASIC_mx_255_refused :
    answer (exec (.setBasic 0 255 0 0) State.reset) = some (0, .encoded (.refused .maxGateNotByte)) := by decide
theorem test_SET_MOVE_SENS_X10 :
    answer (exec (.setMoveSens ⟨[0x32, 0x28, 0x1E, 0x14, 0x0A, 0x04, 0x03, 0x02, 0x01, 0x0A, 0x0A, 0x0A, 0x0A, 0x0A], rfl⟩) State.reset) = some (0, .encoded (.ok [0xFD, 0xFC, 0xFB, 0xFA, 0x10, 0x00, 0x03, 0x00, 0x32, 0x28, 0x1E, 0x14, 0x0A, 0x04, 0x03, 0x02, 0x01, 0x0A, 0x0A, 0x0A, 0x0A, 0x0A, 0x04, 0x03, 0x02, 0x01])) := by decide
theorem test_SET_STILL_SENS_X9 :
    answer (exec (.setStillSens ⟨List.replicate 14 0x0F, rfl⟩) State.reset) = some (0, .encoded (.ok [0xFD, 0xFC, 0xFB, 0xFA, 0x10, 0x00, 0x04, 0x00, 0x0F, 0x0F, 0x0F, 0x0F, 0x0F, 0x0F, 0x0F, 0x0F, 0x0F, 0x0F, 0x0F, 0x0F, 0x0F, 0x0F, 0x04, 0x03, 0x02, 0x01])) := by decide
theorem test_ENCODE_X12 :
    answer (exec (.encode 0x00 []) State.reset) = some (0, .encoded (.ok [0xFD, 0xFC, 0xFB, 0xFA, 0x02, 0x00, 0x00, 0x00, 0x04, 0x03, 0x02, 0x01])) := by decide
theorem test_ENCODE_X15_refused :
    answer (exec (.encode 0x0100 []) State.reset) = some (0, .encoded (.refused .opcodeHighByte)) := by decide
theorem test_QUERY_VERSION_X17 :
    answer (exec (.queryVersion []) State.reset) = some (0, .encoded (.ok [0xFD, 0xFC, 0xFB, 0xFA, 0x02, 0x00, 0xA0, 0x00, 0x04, 0x03, 0x02, 0x01])) := by decide
theorem test_QUERY_RESOLUTION_X17 :
    answer (exec (.queryResolution []) State.reset) = some (0, .encoded (.ok [0xFD, 0xFC, 0xFB, 0xFA, 0x02, 0x00, 0x11, 0x00, 0x04, 0x03, 0x02, 0x01])) := by decide
theorem test_QUERY_BASIC_X17 :
    answer (exec (.queryBasic []) State.reset) = some (0, .encoded (.ok [0xFD, 0xFC, 0xFB, 0xFA, 0x02, 0x00, 0x12, 0x00, 0x04, 0x03, 0x02, 0x01])) := by decide
theorem test_QUERY_MOVE_SENS_X17 :
    answer (exec (.queryMoveSens []) State.reset) = some (0, .encoded (.ok [0xFD, 0xFC, 0xFB, 0xFA, 0x02, 0x00, 0x13, 0x00, 0x04, 0x03, 0x02, 0x01])) := by decide
theorem test_QUERY_STILL_SENS_X17 :
    answer (exec (.queryStillSens []) State.reset) = some (0, .encoded (.ok [0xFD, 0xFC, 0xFB, 0xFA, 0x02, 0x00, 0x14, 0x00, 0x04, 0x03, 0x02, 0x01])) := by decide
theorem test_CAL_START_X17 :
    answer (exec (.calStart []) State.reset) = some (0, .encoded (.ok [0xFD, 0xFC, 0xFB, 0xFA, 0x02, 0x00, 0x0B, 0x00, 0x04, 0x03, 0x02, 0x01])) := by decide
theorem test_CAL_QUERY_X17 :
    answer (exec (.calQuery []) State.reset) = some (0, .encoded (.ok [0xFD, 0xFC, 0xFB, 0xFA, 0x02, 0x00, 0x1B, 0x00, 0x04, 0x03, 0x02, 0x01])) := by decide
theorem test_FACTORY_RESET_X17 :
    answer (exec (.factoryReset []) State.reset) = some (0, .encoded (.ok [0xFD, 0xFC, 0xFB, 0xFA, 0x02, 0x00, 0xA2, 0x00, 0x04, 0x03, 0x02, 0x01])) := by decide
theorem test_RESTART_X17 :
    answer (exec (.restart []) State.reset) = some (0, .encoded (.ok [0xFD, 0xFC, 0xFB, 0xFA, 0x02, 0x00, 0xA3, 0x00, 0x04, 0x03, 0x02, 0x01])) := by decide
theorem test_OP_A9_X17 :
    answer (exec (.opA9 []) State.reset) = some (0, .encoded (.ok [0xFD, 0xFC, 0xFB, 0xFA, 0x02, 0x00, 0xA9, 0x00, 0x04, 0x03, 0x02, 0x01])) := by decide
theorem test_SET_RESOLUTION_X18 :
    answer (exec (.setResolution [0x03]) State.reset) = some (0, .encoded (.ok [0xFD, 0xFC, 0xFB, 0xFA, 0x03, 0x00, 0x01, 0x00, 0x03, 0x04, 0x03, 0x02, 0x01])) := by decide
theorem test_SET_BAUD_X18 :
    answer (exec (.setBaud [0x05]) State.reset) = some (0, .encoded (.ok [0xFD, 0xFC, 0xFB, 0xFA, 0x03, 0x00, 0xA1, 0x00, 0x05, 0x04, 0x03, 0x02, 0x01])) := by decide

/-- X11: 254 bytes carry the length field over into its second byte. -/
theorem test_length_bytes_X11 : le16 (2 + 254) = [0x00, 0x01] := by decide
theorem test_length_bytes_X13 : le16 (2 + 65533) = [0xFF, 0xFF] := by decide
/-- X14. -/
theorem test_payload_too_long_X14 (p : Bytes) (hp : p.length = 65534) :
    encodeRequest 0xFF p = .refused .payloadTooLong := by
  rw [encodeRequest, hp]; rfl

/-! ## The decoder context -/

theorem test_mac_sentinel_reads_unknown :
    macReport [0xFD, 0xFC, 0xFB, 0xFA, 0x0A, 0x00, 0xA5, 0x01, 0x00, 0x00, 0x08, 0x05, 0x04, 0x03, 0x02, 0x01, 0x04, 0x03, 0x02, 0x01] = some .unknown := by decide
/-- Another MAC is its colon-hex text and marks Bluetooth enabled (R168). -/
theorem test_mac_address_reads_colon_hex :
    (macReport [0xFD, 0xFC, 0xFB, 0xFA, 0x0A, 0x00, 0xA5, 0x01, 0x00, 0x00, 0x12, 0x34, 0x56, 0x07, 0x89, 0x90, 0x04, 0x03, 0x02, 0x01]).map (fun m => (m.text, m.bluetoothEnabled)) =
      some (some "12:34:56:07:89:90".toList, true) := by decide
theorem test_ack_verdict_V12_status :
    ackVerdict [0xFD, 0xFC, 0xFB, 0xFA, 0x0A, 0x00, 0xA5, 0x00, 0x00, 0x00, 0x08, 0x05, 0x04, 0x03, 0x02, 0x01] = .failure .ackStatusError := by decide
theorem test_ack_verdict_V13_reserved :
    ackVerdict [0xFD, 0xFC, 0xFB, 0xFA, 0x0A, 0x00, 0xA5, 0x01, 0x00, 0x01, 0x08, 0x05, 0x04, 0x03, 0x02, 0x01] = .failure .reservedBytesError := by decide

/-! ## Witnesses: for every statement with hypotheses, a state and operands that meet them -/

/-- A state that holds the bytes of a frame in progress meets the invariants. -/
theorem inv_holding (cfg : Config) (F : Bytes) (hl : F.length ≤ cfg.cap) (hw : (holding cfg F).buf.wf = true)
    (hb : ∀ c ∈ (holding cfg F).buf, c.1 < cfg.cap) (hr : inProgress (holding cfg F) = .next F)
    (hF : FrameInProgress F) : Inv (holding cfg F) := ⟨hl, hw, hb, F, hr, hF⟩

def teleBytes : Bytes := [0xF4, 0xF3, 0xF2, 0xF1, 0xF8, 0xF7, 0xF6]
def macBytes : Bytes := [0xFD, 0xFC, 0xFB, 0xFA, 0x0A, 0x00, 0xA5, 0x01, 0x00, 0x00, 0x08, 0x05, 0x04, 0x03, 0x02]
def fullBytes : Bytes := [0xF4, 0xF3, 0xF2, 0xF1, 0x00, 0x00, 0x00, 0x00]
def ackV8 : Bytes := [0xFD, 0xFC, 0xFB, 0xFA, 0x08, 0x00, 0xFF, 0x01, 0x00, 0x00, 0x01, 0x00, 0x40, 0x00, 0x04, 0x03, 0x02, 0x01]
def teleV1 : Bytes := [0xF4, 0xF3, 0xF2, 0xF1, 0xF8, 0xF7, 0xF6, 0xF5]
/-- A MAC acknowledgment of 14 bytes: every footer in it is held (V14). -/
def heldAck : Bytes := [0xFD, 0xFC, 0xFB, 0xFA, 0x02, 0x00, 0xA5, 0x01, 0x00, 0x00, 0x04, 0x03, 0x02, 0x01]

theorem frameInProgress_tele : FrameInProgress teleBytes :=
  .inr ⟨.telemetry, by unfold StartsLike; decide, by unfold FootersHeld; decide⟩
theorem frameInProgress_mac : FrameInProgress macBytes :=
  .inr ⟨.ack, by unfold StartsLike; decide, by unfold FootersHeld; decide⟩
theorem frameInProgress_full : FrameInProgress fullBytes :=
  .inr ⟨.telemetry, by unfold StartsLike; decide, by unfold FootersHeld; decide⟩

theorem inv_reset : Inv State.reset := ⟨by decide, rfl, by decide, [], rfl, .inl rfl⟩
theorem inv_tele : Inv (holding cap8 teleBytes) :=
  inv_holding _ _ (by decide) (by decide) (by decide) rfl frameInProgress_tele
theorem inv_mac : Inv (holding cap20 macBytes) :=
  inv_holding _ _ (by decide) (by decide) (by decide) rfl frameInProgress_mac
theorem inv_full : Inv (holding cap8 fullBytes) :=
  inv_holding _ _ (by decide) (by decide) (by decide) rfl frameInProgress_full

/-- Readable states at the ends of the classes: `pos` 0, 3, 4 and `CAP`. -/
theorem readable_holding (cfg : Config) (b : Byte) (F : Bytes) (f : Family) (hl : (b :: F).length ≤ cfg.cap)
    (hr : inProgress (holding cfg (b :: F)) = .next (b :: F)) (hf : family (holding cfg (b :: F)) = .next f) :
    Readable (holding cfg (b :: F)) (b :: F) := ⟨hl, hr, .inr ⟨f, hf⟩⟩

theorem witness_Readable_at_0 : Readable State.reset [] := ⟨by decide, rfl, .inl rfl⟩
theorem witness_Readable_at_3 : Readable (holding cap8 [0xFD, 0xFC, 0xFB]) [0xFD, 0xFC, 0xFB] :=
  readable_holding _ _ _ .ack (by decide) rfl rfl
theorem witness_Readable_at_4 : Readable (holding cap8 [0xF4, 0xF3, 0xF2, 0xF1]) [0xF4, 0xF3, 0xF2, 0xF1] :=
  readable_holding _ _ _ .telemetry (by decide) rfl rfl
theorem witness_Readable_at_cap : Readable (holding cap8 fullBytes) fullBytes :=
  readable_holding _ _ _ .telemetry (by decide) rfl rfl

/-- `Readable` is the hypothesis of these statements. -/
theorem witness_ExactlyOneFeedCaseApplies : Readable (holding cap8 fullBytes) fullBytes := witness_Readable_at_cap
theorem witness_OverflowIsRaisedExactlyAtCapacity :
    Readable (holding cap8 fullBytes) fullBytes ∧ (holding cap8 fullBytes).pos = (holding cap8 fullBytes).cfg.cap ∧
      Readable (holding cap8 teleBytes) teleBytes ∧ (holding cap8 teleBytes).pos ≠ (holding cap8 teleBytes).cfg.cap :=
  ⟨witness_Readable_at_cap, rfl, readable_holding _ _ _ .telemetry (by decide) rfl rfl, by decide⟩
theorem witness_FeedMovesBetweenClassesAsListed : Readable (holding cap8 teleBytes) teleBytes :=
  readable_holding _ _ _ .telemetry (by decide) rfl rfl
theorem witness_FeedIsTotal : Readable State.reset [] := witness_Readable_at_0

theorem witness_StepRunsTheDecodedOperation :
    (offerNext State.reset (.word [0xF4])).inbox = [.word [0xF4]] ∧ decode [0xF4] = .ok (.feed 0xF4) ∧
      (offerNext State.reset (.call (.encode 0x0100 []))).inbox = [.call (.encode 0x0100 [])] ∧
      (offerNext State.reset (.word [0xF4, 0xF3])).inbox = [.word [0xF4, 0xF3]] ∧
      decode [0xF4, 0xF3] = .error .noRowOfThisLength ∧ State.reset.inbox = [] := ⟨rfl, rfl, rfl, rfl, rfl, rfl⟩

theorem witness_DecodeOfEncodeIsTheOperation :
    (Instr.setBasic 0 254 0xFFFF 0xFF).wellFormed = true ∧ (Instr.setBasic 0 254 0xFFFF 0xFF).ownsWord = true ∧
      (Instr.encode 0x55 [0xAA]).wellFormed = true ∧ (Instr.encode 0x55 [0xAA]).ownsWord = true ∧
      (Instr.ack []).wellFormed = true ∧ (Instr.ack []).ownsWord = true := by decide
theorem witness_DecodedOperationEncodesBack : decode [] = .ok .reset ∧ decode [0x00] = .ok (.feed 0x00) := ⟨rfl, rfl⟩

theorem witness_StartStoresTheFirstHeaderByte :
    State.reset.pos = 0 ∧ ((0xF4 : Byte) = 0xF4 ∨ (0xF4 : Byte) = 0xFD) ∧ ((0xFD : Byte) = 0xF4 ∨ (0xFD : Byte) = 0xFD) := by
  decide
theorem witness_HuntDiscardLeavesTheStateUnchanged :
    State.reset.pos = 0 ∧ (0xF3 : Byte) ≠ 0xF4 ∧ (0xF3 : Byte) ≠ 0xFD ∧
      ∀ b ∈ ([0x00, 0xF3, 0xF5, 0xFC, 0xFE, 0xFF] : Bytes), b ≠ 0xF4 ∧ b ≠ 0xFD := by decide
theorem witness_HeaderAcceptStoresTheExpectedByte :
    1 ≤ (holding cap8 [0xF4]).pos ∧ (holding cap8 [0xF4]).pos ≤ 3 ∧ family (holding cap8 [0xF4]) = .next .telemetry ∧
      family (holding cap8 [0xFD, 0xFC, 0xFB]) = .next .ack ∧ (holding cap8 [0xFD, 0xFC, 0xFB]).pos = 3 ∧
      Inv (holding cap8 [0xFD, 0xFC, 0xFB]) :=
  ⟨by decide, by decide, rfl, rfl, rfl,
    inv_holding _ _ (by decide) (by decide) (by decide) rfl
      (.inr ⟨.ack, by unfold StartsLike; decide, by unfold FootersHeld; decide⟩)⟩
theorem witness_HeaderMismatchResynchronises :
    1 ≤ (holding cap8 [0xF4]).pos ∧ (holding cap8 [0xF4]).pos ≤ 3 ∧ family (holding cap8 [0xF4]) = .next .telemetry ∧
      Family.telemetry.hdr[1]? ≠ some 0xFC ∧ family (holding cap8 [0xFD, 0xFC, 0xFB]) = .next .ack ∧
      (holding cap8 [0xFD, 0xFC, 0xFB]).pos = 3 := ⟨by decide, by decide, rfl, by decide, rfl, rfl⟩
theorem witness_AppendStoresTheByte :
    4 ≤ (holding cap8 [0xF4, 0xF3, 0xF2, 0xF1]).pos ∧ (holding cap8 teleBytes).pos = 7 ∧
      (holding cap8 teleBytes).pos < (holding cap8 teleBytes).cfg.cap ∧
      inProgress (holding cap8 teleBytes) = .next teleBytes ∧ family (holding cap8 teleBytes) = .next .telemetry ∧
      ¬ EndsInFooter .telemetry (teleBytes ++ [0x00]) := ⟨by decide, rfl, by decide, rfl, rfl, by decide⟩
theorem witness_FooterTestComparesTheOwnFooter :
    inProgress (holding cap8 teleV1) = .next teleV1 ∧ family (holding cap8 teleV1) = .next .telemetry ∧
      8 ≤ (holding cap8 teleV1).pos ∧ (holding cap8 teleBytes).pos < 8 ∧
      inProgress (holding cap8 [0xF4, 0xF3, 0xF2, 0xF1, 0x04, 0x03, 0x02, 0x01]) =
        .next [0xF4, 0xF3, 0xF2, 0xF1, 0x04, 0x03, 0x02, 0x01] ∧
      EndsInFooter .ack [0xF4, 0xF3, 0xF2, 0xF1, 0x04, 0x03, 0x02, 0x01] :=
  ⟨rfl, rfl, by decide, by decide, rfl, by decide⟩
theorem witness_OverflowDropsTheFrameAndLogs :
    (holding cap8 fullBytes).pos = (holding cap8 fullBytes).cfg.cap := rfl
theorem witness_EmitReturnsTheWholeFrame :
    4 ≤ (holding cap8 teleBytes).pos ∧ (holding cap8 teleBytes).pos < (holding cap8 teleBytes).cfg.cap ∧
      inProgress (holding cap8 teleBytes) = .next teleBytes ∧ family (holding cap8 teleBytes) = .next .telemetry ∧
      EndsInFooter .telemetry (teleBytes ++ [0xF5]) ∧ hold .telemetry (teleBytes ++ [0xF5]) = false ∧
      Inv (holding cap8 teleBytes) :=
  ⟨by decide, by decide, rfl, rfl, by decide, by decide, inv_tele⟩
theorem witness_HoldKeepsAccumulating :
    4 ≤ (holding cap20 macBytes).pos ∧ (holding cap20 macBytes).pos < (holding cap20 macBytes).cfg.cap ∧
      inProgress (holding cap20 macBytes) = .next macBytes ∧ family (holding cap20 macBytes) = .next .ack ∧
      EndsInFooter .ack (macBytes ++ [0x01]) ∧ hold .ack (macBytes ++ [0x01]) = true :=
  ⟨by decide, by decide, rfl, rfl, by decide, by decide⟩
theorem witness_AStepNeverEmitsAndLogs :
    (∃ t r, exec (.feed 0xF5) (holding cap8 teleBytes) = .next t ∧ t.result = .fed r ∧ r.emit ≠ none) ∧
      ∃ t r, exec (.feed 0xF5) (holding cap8 fullBytes) = .next t ∧ t.result = .fed r ∧ r.log ≠ none :=
  ⟨⟨_, _, rfl, rfl, by decide⟩, ⟨_, _, rfl, rfl, by decide⟩⟩
theorem witness_FeedWritesAtMostTheCursorCell :
    (∃ t, exec (.feed 0xF5) (holding cap8 teleBytes) = .next t) ∧
      feedStoresAt 0xF5 (holding cap8 teleBytes) = some 7 ∧ feedStoresAt 0xF5 (holding cap8 fullBytes) = none :=
  ⟨⟨_, rfl⟩, by decide, by decide⟩

theorem witness_ReceptionWritesOnlyItsCells :
    (∃ t, exec (receiveRow .telemetry []) State.reset = .next t) ∧
      7 ∈ runStoresAt (frameOf .telemetry []) State.reset ∧ 8 ∉ runStoresAt (frameOf .telemetry []) State.reset :=
  ⟨⟨_, rfl⟩, by decide, by decide⟩
theorem witness_ReceptionCompletes : Inv (holding cap8 fullBytes) := inv_full
theorem witness_ReceptionIsItsBytesFedOneByOne : ∃ t, exec (receiveRow .ack []) (holding cap8 teleBytes) = .next t := ⟨_, rfl⟩
theorem witness_AssemblerRefinesTheListAssembler :
    Inv (holding cap20 macBytes) ∧ inProgress (holding cap20 macBytes) = .next macBytes := ⟨inv_mac, rfl⟩
theorem witness_EmittedFrameIsWellFormed :
    Inv (holding cap8 teleBytes) ∧ ∃ t, exec (.feed 0xF5) (holding cap8 teleBytes) = .next t ∧
      t.result = .fed { emit := some (.telemetry, teleV1), log := none } := ⟨inv_tele, _, rfl, rfl⟩

/-- The one un-held footer of V1 is at its end. -/
theorem unheldFooter_V1 (k : Nat) : UnheldFooterAt .telemetry teleV1 k ↔ k = teleV1.length := by
  constructor
  · have key : ∀ j, j ≤ teleV1.length → UnheldFooterAt .telemetry teleV1 j → j = teleV1.length := by
      unfold UnheldFooterAt; decide
    exact fun h => key k h.1 h
  · rintro rfl; unfold UnheldFooterAt; decide
/-- Every footer of the short MAC acknowledgment is held. -/
theorem unheldFooter_held (k : Nat) : ¬ UnheldFooterAt .ack heldAck k := by
  have key : ∀ j, j ≤ heldAck.length → ¬ UnheldFooterAt .ack heldAck j := by unfold UnheldFooterAt; decide
  exact fun h => key k h.1 h
theorem wellFormedFrame_V1 : WellFormedFrame .telemetry teleV1 := by unfold WellFormedFrame; decide

theorem witness_WellFormedFrameIsAccepted :
    (State.reset.pos = 0 ∧ WellFormedFrame .telemetry teleV1 ∧ teleV1.length ≤ State.reset.cfg.cap ∧
      UnheldFooterAt .telemetry teleV1 8 ∧ ∀ j, j < 8 → ¬ UnheldFooterAt .telemetry teleV1 j) ∧
      (WellFormedFrame .ack heldAck ∧ heldAck.length ≤ State.reset.cfg.cap ∧ ∀ k, ¬ UnheldFooterAt .ack heldAck k) :=
  ⟨⟨rfl, wellFormedFrame_V1, by decide, (unheldFooter_V1 8).2 rfl, fun j hj h => by
      have := (unheldFooter_V1 j).1 h; rw [this] at hj; revert hj; decide⟩,
    by unfold WellFormedFrame; decide, by decide, unheldFooter_held⟩
theorem witness_WholeFrameIsEmittedOnce :
    State.reset.pos = 0 ∧ (frameOf .telemetry []).length ≤ State.reset.cfg.cap ∧
      ∀ k, UnheldFooterAt .telemetry (frameOf .telemetry []) k ↔ k = (frameOf .telemetry []).length :=
  ⟨rfl, by decide, unheldFooter_V1⟩
theorem witness_NoiseBeforeAFrameIsHarmless :
    State.reset.pos = 0 ∧ (∀ b ∈ ([0x00, 0xF3, 0xF8] : Bytes), b ≠ 0xF4 ∧ b ≠ 0xFD) ∧ WellFormedFrame .telemetry teleV1 ∧
      teleV1.length ≤ State.reset.cfg.cap ∧ ∀ k, UnheldFooterAt .telemetry teleV1 k ↔ k = teleV1.length :=
  ⟨rfl, by decide, wellFormedFrame_V1, by decide, unheldFooter_V1⟩
theorem witness_FalseStartLosesTheNextHeader :
    1 ≤ (holding cap8 [0xF4]).pos ∧ (holding cap8 [0xF4]).pos ≤ 3 ∧ family (holding cap8 [0xF4]) = .next .telemetry ∧
      (holding cap8 [0xFD, 0xFC, 0xFB]).pos = 3 ∧ family (holding cap8 [0xFD, 0xFC, 0xFB]) = .next .ack :=
  ⟨by decide, by decide, rfl, rfl, rfl⟩
theorem witness_OverlongFrameOverflows :
    (holding cap17 []).pos = 0 ∧ ackV8.take 4 = Family.ack.hdr ∧ (holding cap17 []).cfg.cap < ackV8.length ∧
      ∀ k, k ≤ (holding cap17 []).cfg.cap → ¬ UnheldFooterAt .ack ackV8 k :=
  ⟨rfl, by decide, by decide, by unfold UnheldFooterAt; decide⟩
theorem witness_MacAcknowledgmentIsEmittedWhole :
    (holding cap20 []).pos = 0 ∧ 20 ≤ (holding cap20 []).cfg.cap ∧
      ([0x08, 0x05, 0x04, 0x03, 0x02, 0x01] : Bytes).length = 6 := by decide

theorem witness_EncodeReturnsTheFrame :
    (0x00FF : BitVec 16).toNat ≤ 0x00FF ∧ (List.replicate 65533 (0 : Byte)).length ≤ 65533 :=
  ⟨by decide, Nat.le_of_eq longest_payload⟩
theorem witness_EncodeRefusesWhatHasNoFrame :
    0x00FF < (0x0100 : BitVec 16).toNat ∧ (List.replicate 65533 (0 : Byte)).length ≤ 65533 ∧
      (0x00FF : BitVec 16).toNat ≤ 0x00FF ∧ 65533 < (List.replicate 65534 (0 : Byte)).length :=
  ⟨by decide, Nat.le_of_eq longest_payload, by decide, by rw [long_payload]; decide⟩
theorem witness_LengthFieldHoldsTwoPlusPayload :
    0 ≤ 65533 ∧ 65533 ≤ 65533 ∧ (0x00FF : BitVec 16).toNat ≤ 0x00FF := by decide
theorem witness_MnemonicsAreEncodeWithTheirOpcode : (0 : Byte).toNat ≤ 254 ∧ (254 : Byte).toNat ≤ 254 := by decide
theorem witness_SetBasicReturnsItsBytes : (254 : Byte).toNat ≤ 254 ∧ (255 : Byte).toNat = 255 := by decide
theorem witness_QueryCommandsFrameThePayload :
    ([] : Bytes).length ≤ 65533 ∧ (Instr.queryVersion [], 0xA0#8) ∈ [(Instr.queryVersion [], 0xA0#8), (.queryResolution [], 0x11#8),
      (.queryBasic [], 0x12#8), (.queryMoveSens [], 0x13#8), (.queryStillSens [], 0x14#8), (.calQuery [], 0x1B#8)] := by
  decide
theorem witness_SetAndActionCommandsFrameThePayload :
    ([0x05] : Bytes).length ≤ 65533 ∧ (Instr.setBaud [0x05], 0xA1#8) ∈ [(Instr.setResolution [0x05], 0x01#8), (.calStart [0x05], 0x0B#8),
      (.setBaud [0x05], 0xA1#8), (.factoryReset [0x05], 0xA2#8), (.restart [0x05], 0xA3#8), (.opA9 [0x05], 0xA9#8)] := by
  decide
theorem witness_NamedCommandIsEncode :
    ¬ ((0x02 : Byte) = 0x02 ∧ ([0x00, 0x01, 0x05, 0x00, 0x00] : Bytes).length = 5 ∧
      ([0x00, 0x01, 0x05, 0x00, 0x00] : Bytes)[1]? = some 0x00) ∧
      ([0x00, 0x00, 0x05, 0x00, 0x00] : Bytes).length = 5 ∧
      ([0x00, 0x00, 0x05, 0x00, 0x00] : Bytes)[1]? = some 0x00 := by decide
theorem witness_EncoderIsPure : Instr.isEncoder .cfgEnable = true ∧ Instr.isEncoder (.encode 0x0100 []) = true := by decide
theorem witness_EncoderReturnsTheRowsWord :
    Instr.isEncoder (.setBasic 0 254 0 0) = true ∧ Instr.wellFormed (.setBasic 0 254 0 0) = true := by decide
theorem witness_EncodedFrameProperties :
    encodeRequest 0xA5 [0x01, 0x00] = .ok [0xFD, 0xFC, 0xFB, 0xFA, 0x04, 0x00, 0xA5, 0x00, 0x01, 0x00, 0x04, 0x03, 0x02, 0x01] := by decide
/-- L1 and L3: a payload without and with a footer in it. -/
theorem witness_LoopbackEmitsUnlessPayloadHoldsAFooter :
    (holding cap17 []).pos = 0 ∧ encodeRequest 0x02 [0x01, 0x0D, 0x05, 0x00, 0x00] = .ok [0xFD, 0xFC, 0xFB, 0xFA, 0x07, 0x00, 0x02, 0x00, 0x01, 0x0D, 0x05, 0x00, 0x00, 0x04, 0x03, 0x02, 0x01] ∧
      ([0xFD, 0xFC, 0xFB, 0xFA, 0x07, 0x00, 0x02, 0x00, 0x01, 0x0D, 0x05, 0x00, 0x00, 0x04, 0x03, 0x02, 0x01] : Bytes).length ≤ (holding cap17 []).cfg.cap ∧
      encodeRequest 0x02 [0x04, 0x03, 0x02, 0x01] = .ok [0xFD, 0xFC, 0xFB, 0xFA, 0x06, 0x00, 0x02, 0x00, 0x04, 0x03, 0x02, 0x01, 0x04, 0x03, 0x02, 0x01] ∧
      [0x04, 0x03, 0x02, 0x01] <:+: ([0x04, 0x03, 0x02, 0x01] : Bytes) := by decide

theorem witness_EveryStepKeepsTheInvariants :
    Inv (holding cap8 teleBytes) ∧ (∃ t, step (holding cap8 teleBytes) = .next t) ∧
      Inv (offerNext (holding cap8 teleBytes) (.word [0xF5])) ∧ ∃ t, step (offerNext (holding cap8 teleBytes) (.word [0xF5])) = .next t :=
  ⟨inv_tele, ⟨_, rfl⟩, Inv.of_eq inv_tele rfl rfl rfl, ⟨_, rfl⟩⟩
theorem witness_EveryOperationCompletes : Inv State.reset ∧ Inv (holding cap20 macBytes) := ⟨inv_reset, inv_mac⟩
/-- Both disjuncts of the conclusion occur. -/
theorem witness_OnlyAWordOfNoOperationStops :
    Inv (offerNext State.reset (.word [0xF4, 0xF3])) ∧ step (offerNext State.reset (.word [0xF4, 0xF3])) =
      .refused (.noSuchOperation .noRowOfThisLength) := ⟨Inv.of_eq inv_reset rfl rfl rfl, rfl⟩
theorem witness_NoOperationChangesTheCapacity : ∃ t, exec .reset (holding cap12 [0xF4]) = .next t := ⟨_, rfl⟩

/-- Two states that differ in a stale cell and in the kept result: one goes on, one is refused at the next word, one
faults (its first cell holds no value). -/
theorem witness_HistoryIsUnobservable :
    Agree (offerNext State.reset (.word [0xF4])) { offerNext State.reset (.word [0xF4]) with buf := [(9, 0xAA)], result := quiet } ∧
      (∃ t, step (offerNext State.reset (.word [0xF4])) = .next t) ∧
      (∃ r, step (offerNext State.reset (.word [0xF4, 0xF3])) = .refused r) ∧
      ∃ r, step (offerNext { State.reset with pos := 1 } (.word [0xF3])) = .fault r :=
  ⟨⟨rfl, rfl, rfl, fun i hi => absurd hi (Nat.not_lt_zero i)⟩, ⟨_, rfl⟩, ⟨_, rfl⟩, ⟨_, rfl⟩⟩
theorem witness_EncoderAndAssemblerCommute :
    Instr.isEncoder .queryMac = true ∧ Instr.isEncoder (.feed 0xF5) = false ∧
      ∃ t u v, exec (.feed 0xF5) (holding cap8 teleBytes) = .next t ∧ exec .queryMac (holding cap8 teleBytes) = .next u ∧
        exec (.feed 0xF5) u = .next v := ⟨rfl, rfl, _, _, _, rfl, rfl, rfl⟩
theorem witness_HoldIsTheIncompleteVerdict :
    ∃ t, exec (.feed 0x01) (holding cap8 [0xFD, 0xFC, 0xFB, 0xFA, 0x04, 0x03, 0x02]) = .next t ∧
      t.result = .fed { emit := some (.ack, [0xFD, 0xFC, 0xFB, 0xFA, 0x04, 0x03, 0x02, 0x01]), log := none } := ⟨_, rfl, rfl⟩
/-- Each verdict on an Ack frame occurs, at the lengths where the clauses meet: 9 and 10 bytes, and 19 and 20 of a MAC
acknowledgment. -/
theorem witness_AckVerdictFollowsTheStatedOrder :
    ackVerdict [0xFD, 0xFC, 0xFB, 0xFA, 0x04, 0x03, 0x02, 0x01] = .shortFrame ∧ ackVerdict ackV8 = .success 0xFF ∧ ackVerdict heldAck = .incomplete ∧
      ackVerdict [0xFD, 0xFC, 0xFB, 0xFA, 0x02, 0x00, 0xFF, 0x01, 0x00] = .shortFrame ∧
      ackVerdict [0xFD, 0xFC, 0xFB, 0xFA, 0x02, 0x00, 0xFF, 0x01, 0x00, 0x00] = .success 0xFF ∧
      ackVerdict [0xFD, 0xFC, 0xFB, 0xFA, 0x02, 0x00, 0xA5, 0x01, 0x00, 0x00] = .incomplete ∧
      ackVerdict [0xFD, 0xFC, 0xFB, 0xFA, 0x02, 0x00, 0xFF, 0x00, 0x00, 0x00] = .failure .ackStatusError ∧
      ackVerdict [0xFD, 0xFC, 0xFB, 0xFA, 0x02, 0x00, 0xFF, 0x01, 0x00, 0x01] = .failure .reservedBytesError ∧
      ackVerdict [0xFD, 0xFC, 0xFB, 0xFA, 0x09, 0x00, 0xA5, 0x01, 0x00, 0x00, 0x08, 0x05, 0x04, 0x03, 0x02, 0x04, 0x03, 0x02, 0x01] = .incomplete ∧
      ackVerdict [0xFD, 0xFC, 0xFB, 0xFA, 0x09, 0x00, 0xA0, 0x01, 0x00, 0x00, 0x08, 0x05, 0x04, 0x03, 0x02, 0x04, 0x03, 0x02, 0x01] = .success 0xA0 ∧
      ackVerdict [0xFD, 0xFC, 0xFB, 0xFA, 0x0A, 0x00, 0xA5, 0x01, 0x00, 0x00, 0x08, 0x05, 0x04, 0x03, 0x02, 0x01, 0x04, 0x03, 0x02, 0x01] = .success 0xA5 := by decide

/-- A Telemetry frame is a record: the Normal-mode frame of V3, the same in Engineering mode (too short for the gate
arrays), and an Engineering frame of 52 bytes, which has both arrays and the light level. -/
def engineeringFrame : Bytes := [0xF4, 0xF3, 0xF2, 0xF1, 0x2A, 0x00, 0x01, 0xAA, 0x03, 0x32, 0x00, 0x28, 0x14, 0x00, 0x1E, 0x00, 0x00, 0x20, 0x21, 0x22, 0x23, 0x24, 0x25, 0x26, 0x27, 0x28, 0x29, 0x2A, 0x2B, 0x2C, 0x2D, 0x30, 0x31, 0x32, 0x33, 0x34, 0x35, 0x36, 0x37, 0x38, 0x39, 0x3A, 0x3B, 0x3C, 0x3D, 0x33, 0x55, 0x00, 0xF8, 0xF7, 0xF6, 0xF5]
theorem witness_TelemetryVerdictFollowsTheStatedOrder :
    (∃ r, telemetryVerdict [0xF4, 0xF3, 0xF2, 0xF1, 0x0D, 0x00, 0x02, 0xAA, 0x03, 0x32, 0x00, 0x28, 0x14, 0x00, 0x1E, 0x00, 0x00, 0x55, 0x00, 0xF8, 0xF7, 0xF6, 0xF5] = .record r ∧ r.mode = .normal) ∧
      (∃ r, telemetryVerdict [0xF4, 0xF3, 0xF2, 0xF1, 0x0D, 0x00, 0x01, 0xAA, 0x03, 0x32, 0x00, 0x28, 0x14, 0x00, 0x1E, 0x00, 0x00, 0x55, 0x00, 0xF8, 0xF7, 0xF6, 0xF5] = .record r ∧ r.mode = .engineering) ∧
      (∃ r, telemetryVerdict engineeringFrame = .record r ∧ r.mode = .engineering) ∧ engineeringFrame.length = 52 ∧
      engineeringFrame[45]? = some 0x33 ∧ telemetryVerdict teleV1 = .shortFrame :=
  ⟨⟨_, rfl, rfl⟩, ⟨_, rfl, rfl⟩, ⟨_, rfl, rfl⟩, rfl, rfl, by decide⟩
theorem witness_VersionAndResolutionReadAsStated :
    ackVerdict [0xFD, 0xFC, 0xFB, 0xFA, 0x0A, 0x00, 0xA5, 0x01, 0x00, 0x00, 0x08, 0x05, 0x04, 0x03, 0x02, 0x01, 0x04, 0x03, 0x02, 0x01] = .success 0xA5 ∧
      ackVerdict [0xFD, 0xFC, 0xFB, 0xFA, 0x0A, 0x00, 0xA5, 0x01, 0x00, 0x00, 0x12, 0x34, 0x56, 0x07, 0x89, 0x90, 0x04, 0x03, 0x02, 0x01] = .success 0xA5 ∧
      BaudRate.rate .baud1 = 9600 ∧ baudOfRate 460800 = some .baud8 := ⟨by decide, by decide, rfl, rfl⟩

/-- The fields of the Normal-mode frame of V3: both targets, 50 cm and 20 cm (R163, R164). -/
theorem test_telemetry_fields_V3 :
    (telemetryFields [0xF4, 0xF3, 0xF2, 0xF1, 0x0D, 0x00, 0x02, 0xAA, 0x03, 0x32, 0x00, 0x28, 0x14, 0x00, 0x1E, 0x00, 0x00, 0x55, 0x00, 0xF8, 0xF7, 0xF6, 0xF5]).movingDistance = some 50 ∧ (telemetryFields [0xF4, 0xF3, 0xF2, 0xF1, 0x0D, 0x00, 0x02, 0xAA, 0x03, 0x32, 0x00, 0x28, 0x14, 0x00, 0x1E, 0x00, 0x00, 0x55, 0x00, 0xF8, 0xF7, 0xF6, 0xF5]).stillDistance = some 20 ∧
      (telemetryFields [0xF4, 0xF3, 0xF2, 0xF1, 0x0D, 0x00, 0x02, 0xAA, 0x03, 0x32, 0x00, 0x28, 0x14, 0x00, 0x1E, 0x00, 0x00, 0x55, 0x00, 0xF8, 0xF7, 0xF6, 0xF5]).detectionDistance = some 50 := by decide

/-- An Engineering frame of 37 bytes has its whole move array and no still array (R163). -/
theorem test_move_array_without_still_array :
    (telemetryFields [0xF4, 0xF3, 0xF2, 0xF1, 0x23, 0x00, 0x01, 0xAA, 0x03, 0x32, 0x00, 0x28, 0x14, 0x00, 0x1E, 0x00, 0x00, 0x20, 0x21, 0x22, 0x23, 0x24, 0x25, 0x26, 0x27, 0x28, 0x29, 0x2A, 0x2B, 0x2C, 0x2D, 0x55, 0x00, 0xF8, 0xF7, 0xF6, 0xF5]).moveEnergies = some [0x20, 0x21, 0x22, 0x23, 0x24, 0x25, 0x26, 0x27, 0x28, 0x29, 0x2A, 0x2B, 0x2C, 0x2D] ∧
      (telemetryFields [0xF4, 0xF3, 0xF2, 0xF1, 0x23, 0x00, 0x01, 0xAA, 0x03, 0x32, 0x00, 0x28, 0x14, 0x00, 0x1E, 0x00, 0x00, 0x20, 0x21, 0x22, 0x23, 0x24, 0x25, 0x26, 0x27, 0x28, 0x29, 0x2A, 0x2B, 0x2C, 0x2D, 0x55, 0x00, 0xF8, 0xF7, 0xF6, 0xF5]).stillEnergies = none ∧ (telemetryFields [0xF4, 0xF3, 0xF2, 0xF1, 0x23, 0x00, 0x01, 0xAA, 0x03, 0x32, 0x00, 0x28, 0x14, 0x00, 0x1E, 0x00, 0x00, 0x20, 0x21, 0x22, 0x23, 0x24, 0x25, 0x26, 0x27, 0x28, 0x29, 0x2A, 0x2B, 0x2C, 0x2D, 0x55, 0x00, 0xF8, 0xF7, 0xF6, 0xF5]).lightRaw = none := by decide
/-- `raw * 100 / 255` where it is a whole number (R164). -/
theorem test_light_percent : (lightPercent 0x00).toNat = 0 ∧ (lightPercent 0x33).toNat = 20 ∧ (lightPercent 0xFF).toNat = 100 :=
  ⟨lightPercent_exact _ 0 rfl, lightPercent_exact _ 20 rfl, lightPercent_exact _ 100 rfl⟩
theorem test_baud_ends :
    baudRate 0x01 = some 9600 ∧ baudRate 0x08 = some 460800 ∧ baudRate 0x00 = none ∧ baudRate 0x09 = none ∧
      baudOfRate 9600 = some .baud1 ∧ baudOfRate 460800 = some .baud8 := ⟨rfl, rfl, rfl, rfl, rfl, rfl⟩
theorem test_resolution_bytes :
    resolutionOf 0x03 = some .m020 ∧ resolutionOf 0x01 = some .m050 ∧ resolutionOf 0x00 = some .m075 ∧
      resolutionOf 0x02 = none := by decide

end Sys2Proof.Tests
end

section
/-! Every operation of the encoder is one `encodeStep` (`SET_BASIC` up to `mx = 254`): an equation per operation, with the
source's own payload written out. With `encodeStep_eq` they say what it returns and that nothing else changes. -/

namespace Sys2Proof.Machine

@[simp] theorem exec_encode (op : BitVec 16) (p : Bytes) (s : State) : exec (.encode op p) s = encodeStep op p s := rfl

/-! ## The fixed commands (R124, R125, R127, R138) -/

@[simp] theorem exec_cfgEnable (s : State) : exec .cfgEnable s = encodeStep 0xFF [0x01, 0x00] s := rfl
@[simp] theorem exec_cfgDisable (s : State) : exec .cfgDisable s = encodeStep 0xFE [] s := rfl
@[simp] theorem exec_queryMac (s : State) : exec .queryMac s = encodeStep 0xA5 [0x01, 0x00] s := rfl
@[simp] theorem exec_btSetOn (s : State) : exec .btSetOn s = encodeStep 0xA4 [0x01, 0x00] s := rfl
@[simp] theorem exec_btSetOff (s : State) : exec .btSetOff s = encodeStep 0xA4 [0x00, 0x00] s := rfl

/-! ## The commands with operands of their own (R131, R133, R135) -/

/-- Up to 254, `mx` has a successor byte to send; 255 is refused and is no `ENCODE` (R131, D29). -/
theorem exec_setBasic_of_le {mx : Byte} (h : mx.toNat ≤ 254) (mn lvl : Byte) (t : BitVec 16) (s : State) :
    exec (.setBasic mn mx t lvl) s = encodeStep 0x02 ([mn, mx + 1] ++ le16 t.toNat ++ [lvl]) s :=
  if_pos h

@[simp] theorem exec_setMoveSens (g : Gates) (s : State) : exec (.setMoveSens g) s = encodeStep 0x03 g.bytes s := rfl
@[simp] theorem exec_setStillSens (g : Gates) (s : State) : exec (.setStillSens g) s = encodeStep 0x04 g.bytes s := rfl

/-! ## The commands whose payload is the caller's (R126, R128 to R130, R132, R134, R136, R137, R139 to R142) -/

@[simp] theorem exec_queryVersion (p : Bytes) (s : State) : exec (.queryVersion p) s = encodeStep 0xA0 p s := rfl
@[simp] theorem exec_queryResolution (p : Bytes) (s : State) : exec (.queryResolution p) s = encodeStep 0x11 p s := rfl
@[simp] theorem exec_setResolution (p : Bytes) (s : State) : exec (.setResolution p) s = encodeStep 0x01 p s := rfl
@[simp] theorem exec_queryBasic (p : Bytes) (s : State) : exec (.queryBasic p) s = encodeStep 0x12 p s := rfl
@[simp] theorem exec_queryMoveSens (p : Bytes) (s : State) : exec (.queryMoveSens p) s = encodeStep 0x13 p s := rfl
@[simp] theorem exec_queryStillSens (p : Bytes) (s : State) : exec (.queryStillSens p) s = encodeStep 0x14 p s := rfl
@[simp] theorem exec_calStart (p : Bytes) (s : State) : exec (.calStart p) s = encodeStep 0x0B p s := rfl
@[simp] theorem exec_calQuery (p : Bytes) (s : State) : exec (.calQuery p) s = encodeStep 0x1B p s := rfl
@[simp] theorem exec_setBaud (p : Bytes) (s : State) : exec (.setBaud p) s = encodeStep 0xA1 p s := rfl
@[simp] theorem exec_factoryReset (p : Bytes) (s : State) : exec (.factoryReset p) s = encodeStep 0xA2 p s := rfl
@[simp] theorem exec_restart (p : Bytes) (s : State) : exec (.restart p) s = encodeStep 0xA3 p s := rfl
@[simp] theorem exec_opA9 (p : Bytes) (s : State) : exec (.opA9 p) s = encodeStep 0xA9 p s := rfl

/-- Settles O46: either side of each equation is the same `encodeStep`; only `SET_BASIC` has a condition to meet. -/
theorem mnemonicsAreEncodeWithTheirOpcode : Obligations.MnemonicsAreEncodeWithTheirOpcode := by
  intro s p g
  refine ⟨?_, ?_, ?_, ?_, ?_,
    fun mn _ lvl t h => (exec_setBasic_of_le h mn lvl t s).trans (exec_encode ..).symm, ?_, ?_, g.len, ?_⟩
  all_goals simp

end Sys2Proof.Machine
end

section
/-! The two cases of `FEED` that raise `FrameSyncError` (R92, R94, R181): which bytes take them, and what either does. -/

namespace Sys2Proof.Machine

/-- A case of class `FrameSyncError` abandons the frame in progress, silently, and stores nothing (R181). -/
theorem feedByte_of_frameSyncError {b : Byte} {s : State} {c : FeedCase} (hc : feedCase b s = .next c)
    (he : c.error = some .frameSyncError) : feedByte b s = .next (abandon s, silent) := by
  rw [feedByte, hc, andThen_next]
  cases c with
  | huntDiscard | headerMismatch => rfl
  | start | headerAccept | overflow | append | hold | emit => cases he

/-- The same of the operation `FEED b`, whose result is kept. -/
theorem exec_feed_of_frameSyncError {b : Byte} {s : State} {c : FeedCase} (hc : feedCase b s = .next c)
    (he : c.error = some .frameSyncError) : exec (.feed b) s = .next ((abandon s).withResult (.fed silent)) :=
  execFeed_eq_next.2 ⟨abandon s, silent, feedByte_of_frameSyncError hc he, rfl⟩

/-- With nothing in progress there is nothing to abandon. -/
theorem abandon_of_pos_zero {s : State} (h : s.pos = 0) : abandon s = s := by
  rw [abandon, ← h]

/-- Noise hunting discards every byte that starts no header (R92). -/
theorem feedCase_huntDiscard {b : Byte} {s : State} (h0 : s.pos = 0) (hb : b ≠ 0xF4 ∧ b ≠ 0xFD) :
    feedCase b s = .next .huntDiscard := by
  have hnone : ¬ (familyOf b).isSome = true := fun h => ((isSome_familyOf b).1 h).elim hb.1 hb.2
  exact feedCase_eq_next.2 (.inl ⟨h0, (if_neg hnone).symm⟩)

/-- A header under way is given up at every byte but the one expected (R94). -/
theorem feedCase_headerMismatch {b : Byte} {s : State} {f : Family} (h1 : 1 ≤ s.pos) (h3 : s.pos ≤ 3)
    (hf : family s = .next f) (hb : f.hdr[s.pos]? ≠ some b) : feedCase b s = .next .headerMismatch :=
  feedCase_eq_next.2 (.inr (.inl ⟨h1, h3, f, hf, (if_neg hb).symm⟩))

/-- Any number of bytes that start no header leave a noise-hunting state as it is, with no result (R92). -/
theorem run_huntDiscard {s : State} (h0 : s.pos = 0) {bs : Bytes} (hbs : ∀ b ∈ bs, b ≠ 0xF4 ∧ b ≠ 0xFD) :
    run bs s = .next (s, []) := by
  induction bs with
  | nil => exact run_nil s
  | cons b bs ih =>
    obtain ⟨hb, hrest⟩ := List.forall_mem_cons.1 hbs
    have hfeed : feedByte b s = .next (s, silent) := by
      rw [feedByte_of_frameSyncError (feedCase_huntDiscard h0 hb) rfl, abandon_of_pos_zero h0]
    exact run_cons_eq_next.2 ⟨s, silent, [], hfeed, ih hrest, rfl⟩

/-- Settles O10: a discarded byte abandons a frame that is empty already. -/
theorem huntDiscardLeavesTheStateUnchanged : Obligations.HuntDiscardLeavesTheStateUnchanged := by
  refine ⟨fun s b h0 hF4 hFD => ?_, fun s bs h0 hbs => run_huntDiscard h0 hbs⟩
  have hc := feedCase_huntDiscard h0 ⟨hF4, hFD⟩
  have hexec := exec_feed_of_frameSyncError hc rfl
  rw [abandon_of_pos_zero h0] at hexec
  exact ⟨hexec, .huntDiscard, hc, rfl⟩

/-- Settles O12: a first header byte is a mismatch like any other, for none stands inside a header. -/
theorem headerMismatchResynchronises : Obligations.HeaderMismatchResynchronises := by
  intro s b f h1 h3 hf hb
  have hne : f.hdr[s.pos]? ≠ some b := by
    intro heq
    obtain ⟨hF4, hFD⟩ := hdr_inner_ne h1 heq
    rcases hb with hb | hb | hb
    · exact hb heq
    · exact hF4 hb
    · exact hFD hb
  have hc := feedCase_headerMismatch h1 h3 hf hne
  exact ⟨exec_feed_of_frameSyncError hc rfl, .headerMismatch, hc, rfl⟩

end Sys2Proof.Machine
end

section
/-! The bytes an admitted request is answered with (R120, R122): the length field reads back, the opcode is one byte, and
with both an `encodeStep` returns the frame. -/

namespace Sys2Proof.Machine

/-- A number below `2^16` is read back from its two bytes (R40). -/
theorem readLE16_le16 {n : Nat} (h : n < 65536) : readLE16 (BitVec.ofNat 8 n) (BitVec.ofNat 8 (n / 256)) = n := by
  simp [readLE16]; omega

/-- An opcode that `ENCODE` admits is its low byte (R121). -/
theorem toNat_setWidth_opcode {op : BitVec 16} (h : op.toNat ≤ 0x00FF) : (op.setWidth 8).toNat = op.toNat := by
  rw [BitVec.toNat_setWidth]; omega

/-- Settles O38: what is read back is `2 + n`, for it fits 16 bits; the worked values are computed. -/
theorem lengthFieldHoldsTwoPlusPayload : Obligations.LengthFieldHoldsTwoPlusPayload :=
  ⟨fun _ h => ⟨_, _, rfl, readLE16_le16 (by omega)⟩, rfl, rfl, rfl, rfl, rfl, rfl, fun _ => toNat_setWidth_opcode⟩

/-- An admitted request completes with its frame, and nothing but the result changes (R120). -/
theorem encodeStep_ok {op : BitVec 16} {p : Bytes} (ho : op.toNat ≤ 0x00FF) (hp : p.length ≤ 65533) (s : State) :
    encodeStep op p s = .next { s with result := .encoded (.ok (buildFrame op p)) } := by
  rw [encodeStep_eq, encodeRequest_ok ho hp]

/-- The frame with its two length bytes and its opcode byte written as numbers (R120). -/
theorem buildFrame_bytes (op : BitVec 16) (p : Bytes) : buildFrame op p =
    [0xFD, 0xFC, 0xFB, 0xFA, BitVec.ofNat 8 ((2 + p.length) % 256), BitVec.ofNat 8 ((2 + p.length) / 256),
      BitVec.ofNat 8 op.toNat, 0x00] ++ p ++ [0x04, 0x03, 0x02, 0x01] := by
  have hlo : BitVec.ofNat 8 ((2 + p.length) % 256) = BitVec.ofNat 8 (2 + p.length) :=
    BitVec.eq_of_toNat_eq (Nat.mod_mod ..)
  rw [hlo, BitVec.ofNat_toNat]
  rfl

/-- Settles O36: the request is admitted, so it is answered with its frame. -/
theorem encodeReturnsTheFrame : Obligations.EncodeReturnsTheFrame := by
  intro s op p ho hp
  rw [exec_encode, encodeStep_ok ho hp, buildFrame_bytes]

/-! ## The commands whose payload is the caller's -/

/-- A request with an opcode of one byte completes for every payload that fits, with the command word of that byte. -/
theorem encodeStep_of_byte (op : Byte) {p : Bytes} (hp : p.length ≤ 65533) (s : State) :
    encodeStep (op.setWidth 16) p s = .next { s with result := .encoded (.ok (commandWord op p)) } := by
  have ho : (op.setWidth 16).toNat ≤ 0x00FF := by
    have := op.isLt
    rw [BitVec.toNat_setWidth]; omega
  have hop : (op.setWidth 16).setWidth 8 = op := by simp
  rw [encodeStep_ok ho hp, buildFrame, hop]
  rfl

/-- So does every operation of a list of commands, each the `ENCODE` of the opcode listed with it (R75). -/
theorem exec_of_mem_commands {rows : List (Instr × Byte)} {p : Bytes} (hp : p.length ≤ 65533) {s : State}
    (hrows : ∀ r ∈ rows, exec r.1 s = encodeStep (r.2.setWidth 16) p s) {i : Instr} {op : Byte} (h : (i, op) ∈ rows) :
    exec i s = .next { s with result := .encoded (.ok (commandWord op p)) } :=
  (hrows (i, op) h).trans (encodeStep_of_byte op hp s)

/-- Settles O42: by the simp equations `exec_queryVersion` to `exec_calQuery`, each query command is the `ENCODE` of the
opcode listed with it. -/
theorem queryCommandsFrameThePayload : Obligations.QueryCommandsFrameThePayload := by
  intro s p i op hp hmem
  exact exec_of_mem_commands hp (by simp) hmem

/-- Settles O43: by `exec_setResolution` to `exec_opA9`, so is each of the other six. -/
theorem setAndActionCommandsFrameThePayload : Obligations.SetAndActionCommandsFrameThePayload := by
  intro s p i op hp hmem
  exact exec_of_mem_commands hp (by simp) hmem

end Sys2Proof.Machine
end

section
/-! `FEED` case by case (R90 to R100), on a state whose frame in progress can be read: which row of the table of R90
applies, that it is the case taken, and what the step then does. -/

namespace Sys2Proof.Machine

/-! ## The state after a store -/

/-- `s` after `buf[pos] <- b; pos <- pos + 1` (R21). -/
def stored (b : Byte) (s : State) : State := { s with buf := s.buf.write s.pos b, pos := s.pos + 1 }

@[simp] theorem stored_cfg (b : Byte) (s : State) : (stored b s).cfg = s.cfg := rfl
@[simp] theorem stored_pos (b : Byte) (s : State) : (stored b s).pos = s.pos + 1 := rfl
@[simp] theorem stored_inbox (b : Byte) (s : State) : (stored b s).inbox = s.inbox := rfl

/-- The byte stands at the cell the cursor was at. -/
@[simp] theorem stored_read_cursor (b : Byte) (s : State) : (stored b s).buf.read s.pos = some b :=
  Memory.read_write_same ..

/-- Every other cell reads as before. -/
theorem stored_read_other (b : Byte) (s : State) {a : Nat} (h : a ≠ s.pos) :
    (stored b s).buf.read a = s.buf.read a :=
  Memory.read_write_other _ _ h

theorem storeByte_eq_stored {b : Byte} {s : State} (h : s.pos < s.cfg.cap) : storeByte b s = .next (stored b s) :=
  storeByte_room h

theorem inProgress_stored {b : Byte} {s : State} {F : Bytes} (h : s.pos < s.cfg.cap) (hF : inProgress s = .next F) :
    inProgress (stored b s) = .next (F ++ [b]) :=
  inProgress_storeByte (storeByte_eq_stored h) hF

theorem family_stored {b : Byte} {s : State} {f : Family} (h1 : 1 ≤ s.pos) (h : s.pos < s.cfg.cap)
    (hf : family s = .next f) : family (stored b s) = .next f :=
  family_storeByte h1 (storeByte_eq_stored h) hf

/-- A first header byte fixes the family (R91). -/
theorem family_stored_start {b : Byte} {s : State} {f : Family} (h0 : s.pos = 0) (hb : familyOf b = some f) :
    family (stored b s) = .next f := by
  have hcap : 0 < s.cfg.cap := Nat.lt_of_lt_of_le (by decide) s.cfg.capOk
  refine family_eq_next.2 ⟨b, readCell_eq_next.2 ⟨hcap, ?_⟩, hb⟩
  rw [← h0, stored_read_cursor]

/-! ## What each case does -/

/-- A case that stores its byte and does not emit: the store is all it does, and it is silent (R91, R93, R95, R100). -/
theorem feedByte_of_stores {b : Byte} {s : State} {c : FeedCase} (hc : feedCase b s = .next c)
    (hst : c.storesAt s = some s.pos) (hne : c ≠ .emit) (hroom : s.pos < s.cfg.cap) :
    feedByte b s = .next (stored b s, silent) := by
  rw [feedByte, hc, andThen_next]
  cases c with
  | start | headerAccept | append => rw [applyCase, acceptByte, storeByte_eq_stored hroom, andThen_next]
  | hold => rw [applyCase, holdFrame, storeByte_eq_stored hroom, andThen_next]; rfl
  | huntDiscard | headerMismatch | overflow => cases hst
  | emit => exact absurd rfl hne

/-- The overflow case drops the frame in progress and logs (R97). -/
theorem feedByte_of_overflow {b : Byte} {s : State} (hc : feedCase b s = .next .overflow) :
    feedByte b s = .next (abandon s, overflowed) := by
  rw [feedByte, hc, andThen_next]; rfl

/-- The emit case hands out the bytes in progress with the new one, and starts over (R98). -/
theorem feedByte_of_emit {b : Byte} {s : State} {F : Bytes} {f : Family} (hc : feedCase b s = .next .emit)
    (h1 : 1 ≤ s.pos) (hroom : s.pos < s.cfg.cap) (hF : inProgress s = .next F) (hf : family s = .next f) :
    feedByte b s = .next (abandon (stored b s), emitted f (F ++ [b])) := by
  rw [feedByte, hc, andThen_next, applyCase, emitFrame, storeByte_eq_stored hroom, andThen_next,
    family_stored h1 hroom hf, andThen_next, inProgress_stored hroom hF, andThen_next]

/-- The operation `FEED b` keeps the result of its byte. -/
theorem exec_feed_of_feedByte {b : Byte} {s t : State} {r : FeedResult} (h : feedByte b s = .next (t, r)) :
    exec (.feed b) s = .next (t.withResult (.fed r)) :=
  execFeed_eq_next.2 ⟨t, r, h, rfl⟩

/-! ## The table of cases (R90) -/

/-- The case whose row applies is the case taken. -/
theorem feedCase_of_applies {s : State} {b : Byte} {F : Bytes} (h : Readable s F) {c : FeedCase}
    (hc : CaseApplies s b F c) : feedCase b s = .next c := by
  cases c with
  | start =>
    obtain ⟨h0, hb⟩ := hc
    exact feedCase_eq_next.2 (.inl ⟨h0, (if_pos ((isSome_familyOf b).2 hb)).symm⟩)
  | huntDiscard =>
    obtain ⟨h0, hb⟩ := hc
    exact feedCase_huntDiscard h0 hb
  | headerAccept =>
    obtain ⟨h1, h3, f, hf, hb⟩ := hc
    exact feedCase_eq_next.2 (.inr (.inl ⟨h1, h3, f, hf, (if_pos hb).symm⟩))
  | headerMismatch =>
    obtain ⟨h1, h3, f, hf, hb⟩ := hc
    exact feedCase_headerMismatch h1 h3 hf hb
  | overflow =>
    obtain ⟨h4, hcap⟩ := hc
    exact feedCase_eq_next.2 (.inr (.inr (.inl ⟨h4, hcap, rfl⟩)))
  | append =>
    obtain ⟨h4, hroom, f, hf, he⟩ := hc
    rw [feedCase_body h4 hroom h.bytes hf, if_neg he]
  | hold =>
    obtain ⟨h4, hroom, f, hf, he, hh⟩ := hc
    rw [feedCase_body h4 hroom h.bytes hf, if_pos he, if_pos hh]
  | emit =>
    obtain ⟨h4, hroom, f, hf, he, hh⟩ := hc
    rw [feedCase_body h4 hroom h.bytes hf, if_pos he, hh, if_neg Bool.false_ne_true]

/-- A state with bytes in progress that can be read has a family. -/
theorem Readable.family {s : State} {F : Bytes} (h : Readable s F) (h1 : 1 ≤ s.pos) : ∃ f, family s = .next f :=
  h.fam.resolve_left (by omega)

/-- Some row of the table applies: the cursor names the class, and each class's rows are exhaustive. -/
theorem exists_caseApplies {s : State} {F : Bytes} (h : Readable s F) (b : Byte) : ∃ c, CaseApplies s b F c := by
  rcases Nat.eq_zero_or_pos s.pos with h0 | h1
  · by_cases hb : b = 0xF4 ∨ b = 0xFD
    · exact ⟨.start, h0, hb⟩
    · exact ⟨.huntDiscard, h0, not_or.1 hb⟩
  obtain ⟨f, hf⟩ := h.family h1
  by_cases h3 : s.pos ≤ 3
  · by_cases hb : f.hdr[s.pos]? = some b
    · exact ⟨.headerAccept, h1, h3, f, hf, hb⟩
    · exact ⟨.headerMismatch, h1, h3, f, hf, hb⟩
  have h4 : 4 ≤ s.pos := by omega
  rcases Nat.eq_or_lt_of_le h.posLe with hcap | hroom
  · exact ⟨.overflow, h4, hcap⟩
  by_cases he : EndsInFooter f (F ++ [b])
  · cases hh : Machine.hold f (F ++ [b]) with
    | true => exact ⟨.hold, h4, hroom, f, hf, he, hh⟩
    | false => exact ⟨.emit, h4, hroom, f, hf, he, hh⟩
  · exact ⟨.append, h4, hroom, f, hf, he⟩

/-- Settles O8: some row applies, and every row that applies is the case taken. -/
theorem exactlyOneFeedCaseApplies : Obligations.ExactlyOneFeedCaseApplies := by
  intro s b F h
  obtain ⟨c, hc⟩ := exists_caseApplies h b
  have htaken := feedCase_of_applies h hc
  refine ⟨c, hc, htaken, fun c' hc' => ?_⟩
  rw [feedCase_of_applies h hc'] at htaken
  cases htaken; rfl

/-- A row that stores its byte finds room for it. -/
theorem CaseApplies.room {s : State} {b : Byte} {F : Bytes} {c : FeedCase} (hc : CaseApplies s b F c)
    (hst : c.storesAt s = some s.pos) : s.pos < s.cfg.cap := by
  have hcap := s.cfg.capOk
  cases c with
  | start => have h0 := hc.1; omega
  | headerAccept => have h3 := hc.2.1; omega
  | append | hold | emit => exact hc.2.1
  | huntDiscard | headerMismatch | overflow => cases hst

/-- What a case leaves and returns, where `F` is the frame in progress and `f` its family (R91 to R100). -/
def FeedCase.effect (f : Family) (F : Bytes) (b : Byte) (s : State) : FeedCase → State × FeedResult
  | .start | .headerAccept | .append | .hold => (stored b s, silent)
  | .huntDiscard | .headerMismatch => (abandon s, silent)
  | .overflow => (abandon s, overflowed)
  | .emit => (abandon (stored b s), emitted f (F ++ [b]))

/-- The case whose row applies is taken, with its effect. -/
theorem feedByte_of_applies {s : State} {b : Byte} {F : Bytes} (h : Readable s F) {c : FeedCase}
    (hc : CaseApplies s b F c) :
    ∃ f, (1 ≤ s.pos → Machine.family s = .next f) ∧ feedByte b s = .next (c.effect f F b s) := by
  have hfam : ∃ f, 1 ≤ s.pos → Machine.family s = .next f := by
    rcases Nat.eq_zero_or_pos s.pos with h0 | h1
    · exact ⟨.ack, fun h1 => by omega⟩
    · obtain ⟨f, hf⟩ := h.family h1
      exact ⟨f, fun _ => hf⟩
  obtain ⟨f, hf⟩ := hfam
  refine ⟨f, hf, ?_⟩
  have htaken := feedCase_of_applies h hc
  cases c with
  | start | headerAccept | append | hold =>
    exact feedByte_of_stores htaken rfl (by decide) (hc.room rfl)
  | huntDiscard | headerMismatch => exact feedByte_of_frameSyncError htaken rfl
  | overflow => exact feedByte_of_overflow htaken
  | emit =>
    have h1 : 1 ≤ s.pos := by have h4 := hc.1; omega
    exact feedByte_of_emit htaken h1 (hc.room rfl) h.bytes (hf h1)

end Sys2Proof.Machine
end

section
/-! The assembler refines the assembler over a list (D10), and what the list keeps (R29): from these follow that every
operation completes and that every step keeps the invariants. -/

namespace Sys2Proof.Machine

/-! ## Frames in progress as lists -/

/-- A frame in progress that starts like `f` is of family `f` (R23). -/
theorem StartsLike.familyOf_head {f : Family} {F : Bytes} (h : StartsLike f F) : F.head?.bind familyOf = some f := by
  obtain ⟨hne, hbytes⟩ := h
  rw [List.head?_eq_getElem?, hbytes 0 (by decide) (List.length_pos_iff.2 hne), ← List.head?_eq_getElem?]
  exact familyOf_hdr_head f

/-- A first header byte starts a frame of its family. -/
theorem startsLike_singleton {f : Family} {b : Byte} (h : familyOf b = some f) : StartsLike f [b] := by
  refine ⟨by simp, fun i _ hi => ?_⟩
  obtain rfl : i = 0 := by simpa using hi
  rcases familyOf_eq_some.1 h with ⟨rfl, rfl⟩ | ⟨rfl, rfl⟩ <;> rfl

/-- One more byte, the expected one in the header, keeps the start. -/
theorem StartsLike.snoc {f : Family} {F : Bytes} {b : Byte} (h : StartsLike f F)
    (hb : F.length ≤ 3 → f.hdr[F.length]? = some b) : StartsLike f (F ++ [b]) := by
  refine ⟨by simp, fun i h4 hi => ?_⟩
  rcases Nat.lt_or_ge i F.length with hlt | hge
  · rw [List.getElem?_append_left hlt, h.2 i h4 hlt]
  · obtain rfl : i = F.length := by simp at hi; omega
    rw [List.getElem?_concat_length, hb (by omega)]

/-- Fewer than 8 bytes hold no footer. -/
theorem footersHeld_of_short {f : Family} {F : Bytes} (h : F.length < 8) : FootersHeld f F := fun k hk he =>
  absurd he (not_endsInFooter_of_short (by simp; omega))

/-- One more byte that completes no footer, or a held one, keeps the footers held. -/
theorem FootersHeld.snoc {f : Family} {F : Bytes} {b : Byte} (h : FootersHeld f F)
    (hb : EndsInFooter f (F ++ [b]) → hold f (F ++ [b]) = true) : FootersHeld f (F ++ [b]) := by
  intro k hk he
  rcases Nat.lt_or_ge F.length k with hlt | hge
  · rw [List.take_of_length_le (by simp; omega)] at he ⊢
    exact hb he
  · rw [List.take_append_of_le_length hge] at he ⊢
    exact h k hge he

/-! ## The assembler over a list, by the bytes in progress -/

/-- With nothing in progress only a first header byte is kept (R91, R92). -/
theorem listFeed_nil (cap : Nat) (b : Byte) :
    listFeed cap [] b = if (familyOf b).isSome then ([b], silent) else ([], silent) := rfl

/-- With a frame of family `f` in progress: the header, the overflow, the footer (R93 to R100). -/
theorem listFeed_of_family {F : Bytes} {f : Family} (h : F.head?.bind familyOf = some f) (cap : Nat) (b : Byte) :
    listFeed cap F b =
      if F.length ≤ 3 then
        if f.hdr[F.length]? = some b then (F ++ [b], silent) else ([], silent)
      else if F.length = cap then ([], overflowed)
      else if EndsInFooter f (F ++ [b]) then
        if hold f (F ++ [b]) then (F ++ [b], silent) else ([], emitted f (F ++ [b]))
      else (F ++ [b], silent) := by
  obtain ⟨b0, hb0, hf⟩ := Option.bind_eq_some_iff.1 h
  simp only [listFeed, hb0, hf]

/-- A frame in progress stays one (R29). -/
theorem frameInProgress_listFeed {F : Bytes} (h : FrameInProgress F) (cap : Nat) (b : Byte) :
    FrameInProgress (listFeed cap F b).1 := by
  rcases h with rfl | ⟨f, hstart, hheld⟩
  · rw [listFeed_nil]
    split
    · next hsome =>
      obtain ⟨f, hf⟩ := Option.isSome_iff_exists.1 hsome
      exact .inr ⟨f, startsLike_singleton hf, footersHeld_of_short (by simp)⟩
    · exact .inl rfl
  rw [listFeed_of_family hstart.familyOf_head]
  by_cases h3 : F.length ≤ 3
  · rw [if_pos h3]
    split
    · next hb => exact .inr ⟨f, hstart.snoc fun _ => hb, footersHeld_of_short (by simp; omega)⟩
    · exact .inl rfl
  rw [if_neg h3]
  have hstart' : StartsLike f (F ++ [b]) := hstart.snoc fun h => absurd h h3
  split
  · exact .inl rfl
  split
  · split
    · next hh => exact .inr ⟨f, hstart', hheld.snoc fun _ => hh⟩
    · exact .inl rfl
  · next he => exact .inr ⟨f, hstart', hheld.snoc fun h => absurd h he⟩

/-! ## The refinement, on every readable state -/

/-- With the frame in progress abandoned there is nothing to read. -/
theorem readable_abandon (s : State) : Readable (abandon s) [] :=
  ⟨Nat.zero_le _, inProgress_zero rfl, .inl rfl⟩

/-- A store that fixes or keeps the family leaves a readable state. -/
theorem readable_stored {b : Byte} {s : State} {F : Bytes} {f : Family} (hroom : s.pos < s.cfg.cap)
    (hF : inProgress s = .next F) (hf : family (stored b s) = .next f) : Readable (stored b s) (F ++ [b]) :=
  ⟨hroom, inProgress_stored hroom hF, .inr ⟨f, hf⟩⟩

/-- `FEED b` refines `listFeed`: the same result, the same bytes in progress, and a readable state again. -/
theorem feedByte_refines {s : State} {F : Bytes} (h : Readable s F) (b : Byte) :
    ∃ t, feedByte b s = .next (t, (listFeed s.cfg.cap F b).2) ∧ Readable t (listFeed s.cfg.cap F b).1 := by
  have hlen := inProgress_length h.bytes
  obtain ⟨c, hc⟩ := exists_caseApplies h b
  obtain ⟨f, hf, hfeed⟩ := feedByte_of_applies h hc
  have hlist : 1 ≤ s.pos → _ := fun h1 =>
    listFeed_of_family ((family_of_inProgress h.bytes h1).1 (hf h1)) s.cfg.cap b
  have hkeeps : 1 ≤ s.pos → c.storesAt s = some s.pos → Readable (stored b s) (F ++ [b]) := fun h1 hst =>
    readable_stored (hc.room hst) h.bytes (family_stored h1 (hc.room hst) (hf h1))
  cases c with
  | start =>
    have hroom := hc.room rfl
    obtain ⟨h0, hb⟩ := hc
    obtain rfl : F = [] := List.length_eq_zero_iff.1 (by omega)
    have hsome := (isSome_familyOf b).2 hb
    obtain ⟨g, hg⟩ := Option.isSome_iff_exists.1 hsome
    rw [listFeed_nil, if_pos hsome]
    exact ⟨_, hfeed, readable_stored hroom h.bytes (family_stored_start h0 hg)⟩
  | huntDiscard =>
    obtain ⟨h0, hb⟩ := hc
    obtain rfl : F = [] := List.length_eq_zero_iff.1 (by omega)
    rw [listFeed_nil, if_neg fun hsome => not_or.2 hb ((isSome_familyOf b).1 hsome)]
    exact ⟨_, hfeed, readable_abandon s⟩
  | headerAccept =>
    obtain ⟨h1, h3, g, hg, hb⟩ := hc
    cases (hf h1).symm.trans hg
    rw [hlist h1, if_pos (by omega), if_pos (by rwa [hlen])]
    exact ⟨_, hfeed, hkeeps h1 rfl⟩
  | headerMismatch =>
    obtain ⟨h1, h3, g, hg, hb⟩ := hc
    cases (hf h1).symm.trans hg
    rw [hlist h1, if_pos (by omega), if_neg (by rwa [hlen])]
    exact ⟨_, hfeed, readable_abandon s⟩
  | overflow =>
    obtain ⟨h4, hcap⟩ := hc
    rw [hlist (by omega), if_neg (by omega), if_pos (by omega)]
    exact ⟨_, hfeed, readable_abandon s⟩
  | append =>
    obtain ⟨h4, hroom, g, hg, he⟩ := hc
    have h1 : 1 ≤ s.pos := by omega
    cases (hf h1).symm.trans hg
    rw [hlist h1, if_neg (by omega), if_neg (by omega), if_neg he]
    exact ⟨_, hfeed, hkeeps h1 rfl⟩
  | hold =>
    obtain ⟨h4, hroom, g, hg, he, hh⟩ := hc
    have h1 : 1 ≤ s.pos := by omega
    cases (hf h1).symm.trans hg
    rw [hlist h1, if_neg (by omega), if_neg (by omega), if_pos he, if_pos hh]
    exact ⟨_, hfeed, hkeeps h1 rfl⟩
  | emit =>
    obtain ⟨h4, hroom, g, hg, he, hh⟩ := hc
    have h1 : 1 ≤ s.pos := by omega
    cases (hf h1).symm.trans hg
    rw [hlist h1, if_neg (by omega), if_neg (by omega), if_pos he, hh, if_neg Bool.false_ne_true]
    exact ⟨_, hfeed, readable_abandon _⟩

/-- A run of bytes refines `listRun`. -/
theorem run_refines (bs : Bytes) {s : State} {F : Bytes} (h : Readable s F) :
    ∃ t, run bs s = .next (t, (listRun s.cfg.cap F bs).2) ∧ Readable t (listRun s.cfg.cap F bs).1 := by
  induction bs generalizing s F with
  | nil => exact ⟨s, rfl, h⟩
  | cons b bs ih =>
    obtain ⟨u, hu, hread⟩ := feedByte_refines h b
    obtain ⟨t, ht, hread'⟩ := ih hread
    rw [(feedByte_cfg_inbox hu).1] at ht hread'
    exact ⟨t, run_cons_eq_next.2 ⟨u, _, _, hu, ht, rfl⟩, hread'⟩

/-! ## The invariants -/

/-- A readable state with a frame in progress and a canonical memory meets the invariants. -/
theorem Readable.inv {s : State} {F : Bytes} (h : Readable s F) (hframe : FrameInProgress F)
    (hwf : s.buf.wf = true) (hbelow : ∀ c ∈ s.buf, c.1 < s.cfg.cap) : Inv s :=
  ⟨h.posLe, hwf, hbelow, F, h.bytes, hframe⟩

/-- With `F` in progress, a state that meets the invariants can be read as `F`, and `F` is a frame in progress. -/
theorem Inv.readable {s : State} {F : Bytes} (h : Inv s) (hF : inProgress s = .next F) :
    Readable s F ∧ FrameInProgress F := by
  obtain ⟨G, hG, hframe⟩ := readable_of_inv h
  cases hF.symm.trans hG.bytes
  exact ⟨hG, hframe⟩

/-- A byte fed refines `listFeed` and keeps the invariants. -/
theorem feedByte_of_inv {s : State} {F : Bytes} (hinv : Inv s) (hF : inProgress s = .next F) (b : Byte) :
    ∃ t, feedByte b s = .next (t, (listFeed s.cfg.cap F b).2) ∧
      inProgress t = .next (listFeed s.cfg.cap F b).1 ∧ Inv t := by
  obtain ⟨hread, hframe⟩ := hinv.readable hF
  obtain ⟨t, ht, hread'⟩ := feedByte_refines hread b
  exact ⟨t, ht, hread'.bytes, hread'.inv (frameInProgress_listFeed hframe _ b) (feedByte_wf ht hinv.memWf)
    (feedByte_below ht hinv.memBelow)⟩

/-- Settles O28: a byte fed refines `listFeed`, and keeping its result changes neither buffer nor cursor. -/
theorem assemblerRefinesTheListAssembler : Obligations.AssemblerRefinesTheListAssembler := by
  intro s b F hinv hF
  obtain ⟨t, ht, hF', hinv'⟩ := feedByte_of_inv hinv hF b
  exact ⟨_, exec_feed_of_feedByte ht, hF'.symm ▸ inProgress_congr rfl rfl rfl, rfl, inv_withResult hinv' _⟩

/-- Bytes fed from a state that meets the invariants run through to one that does. -/
theorem run_of_inv (bs : Bytes) {s : State} (hinv : Inv s) : ∃ t rs, run bs s = .next (t, rs) ∧ Inv t := by
  induction bs generalizing s with
  | nil => exact ⟨s, [], rfl, hinv⟩
  | cons b bs ih =>
    obtain ⟨F, hF, -⟩ := hinv.frame
    obtain ⟨u, hu, -, hinv'⟩ := feedByte_of_inv hinv hF b
    obtain ⟨t, rs, ht, hinv''⟩ := ih hinv'
    exact ⟨t, _, run_cons_eq_next.2 ⟨u, _, rs, hu, ht, rfl⟩, hinv''⟩

end Sys2Proof.Machine
end

section
/-! Every operation is one of the encoder, the reception of a frame, `FEED` or `RESET`: what each can do, and so that
every operation completes and every step keeps the invariants. -/

namespace Sys2Proof.Machine

/-! ## The operations of the encoder and of the assembler -/

/-- The `mx` that has no successor byte is refused, on every state alike (R131, D29). -/
theorem exec_setBasic_of_gt {mx : Byte} (h : ¬ mx.toNat ≤ 254) (mn lvl : Byte) (t : BitVec 16) (s : State) :
    exec (.setBasic mn mx t lvl) s = .next { s with result := .encoded (.refused .maxGateNotByte) } :=
  if_neg h

/-- Settles O44: each is one `encodeStep`, but for the refused `SET_BASIC`. -/
theorem encoderIsPure : Obligations.EncoderIsPure := by
  intro i hi
  cases i with
  | setBasic mn mx t lvl =>
    by_cases h : mx.toNat ≤ 254
    · exact ⟨_, fun s => exec_setBasic_of_le h mn lvl t s⟩
    · exact ⟨_, fun s => exec_setBasic_of_gt h mn lvl t s⟩
  | telemetry | ack | feed | reset => cases hi
  | _ => exact ⟨_, fun s => rfl⟩

/-- The operations of the assembler: the reception of a frame, a byte fed, the reset. -/
theorem assembler_cases {i : Instr} (h : i.isEncoder = false) :
    (∃ f body, i = receiveRow f body) ∨ (∃ b, i = .feed b) ∨ i = .reset := by
  cases i with
  | telemetry body => exact .inl ⟨.telemetry, body, rfl⟩
  | ack body => exact .inl ⟨.ack, body, rfl⟩
  | feed b => exact .inr (.inl ⟨b, rfl⟩)
  | reset => exact .inr (.inr rfl)
  | _ => cases h

/-- Either receive row is the reception of a frame of its family. -/
theorem exec_receiveRow (f : Family) (body : Bytes) (s : State) :
    exec (receiveRow f body) s = receiveFrame f body s := by
  cases f <;> rfl

theorem exec_reset (s : State) : exec .reset s = .next { s with pos := 0, buf := [], result := .nothing } := rfl

/-- A reception whose bytes run through completes with the results of the run (R109). -/
theorem exec_receiveRow_of_run {f : Family} {body : Bytes} {s t : State} {rs : List FeedResult}
    (h : run (frameOf f body) s = .next (t, rs)) : exec (receiveRow f body) s = .next (t.withResult (.ran rs)) :=
  (exec_receiveRow f body s).trans (receiveFrame_eq_next.2 ⟨t, rs, h, rfl⟩)

/-- A reception that answers is a run of the frame's bytes. -/
theorem run_of_exec_receiveRow {f : Family} {body : Bytes} {s t : State}
    (h : exec (receiveRow f body) s = .next t) :
    ∃ u rs, run (frameOf f body) s = .next (u, rs) ∧ t = u.withResult (.ran rs) :=
  receiveFrame_eq_next.1 ((exec_receiveRow f body s).symm.trans h)

/-! ## Completion and the invariants -/

/-- A state with nothing in progress and no cell written meets the invariants. -/
theorem inv_of_empty {s : State} (hpos : s.pos = 0) (hbuf : s.buf = []) : Inv s :=
  ⟨by omega, by rw [hbuf]; rfl, by simp [hbuf], [], inProgress_zero hpos, .inl rfl⟩

/-- Settles O2: nothing is in progress and no cell is written. -/
theorem resetMeetsTheInvariants : Obligations.ResetMeetsTheInvariants := inv_of_empty rfl rfl

/-- Settles O26: the bytes of the frame are a run, which the invariants carry through. -/
theorem receptionCompletes : Obligations.ReceptionCompletes := by
  intro s f body hinv
  obtain ⟨u, rs, hrun, hinv'⟩ := run_of_inv (frameOf f body) hinv
  exact ⟨u, rs, hrun, exec_receiveRow_of_run hrun, inv_withResult hinv' (.ran rs)⟩

/-- Settles O51: the encoder is pure, the assembler's operations carry the invariants through. -/
theorem everyOperationCompletes : Obligations.EveryOperationCompletes := by
  intro i s hinv
  cases hi : i.isEncoder with
  | true =>
    obtain ⟨r, hr⟩ := encoderIsPure i hi
    exact ⟨_, hr s, inv_withResult hinv (.encoded r)⟩
  | false =>
    obtain ⟨f, body, rfl⟩ | ⟨b, rfl⟩ | rfl := assembler_cases hi
    · obtain ⟨u, rs, -, hexec, hinv'⟩ := receptionCompletes s f body hinv
      exact ⟨_, hexec, hinv'⟩
    · obtain ⟨F, hF, -⟩ := hinv.frame
      obtain ⟨t, hexec, -, -, hinv'⟩ := assemblerRefinesTheListAssembler s b F hinv hF
      exact ⟨t, hexec, hinv'⟩
    · exact ⟨_, exec_reset s, inv_of_empty rfl rfl⟩

/-- Taking an offer keeps the invariants, which do not look at what is offered. -/
theorem inv_withInbox {s : State} (h : Inv s) (offers : List Offer) : Inv { s with inbox := offers } :=
  h.of_eq rfl rfl rfl

/-- Settles O50: a step that answers was idle, or ran an operation, which completes with the invariants kept. -/
theorem everyStepKeepsTheInvariants : Obligations.EveryStepKeepsTheInvariants := by
  intro s t hinv hstep
  rcases step_eq_next hstep with ⟨-, rfl⟩ | ⟨o, rest, i, -, -, hexec⟩
  · exact inv_withResult hinv .nothing
  · obtain ⟨u, hu, hinv'⟩ := everyOperationCompletes i _ (inv_withInbox hinv rest)
    cases hexec.symm.trans hu
    exact hinv'

/-- Settles O52: with nothing offered a step is idle, an operation completes, and only a word can stand for none. -/
theorem onlyAWordOfNoOperationStops : Obligations.OnlyAWordOfNoOperationStops := by
  intro s hinv
  cases hbox : s.inbox with
  | nil => exact .inl ⟨_, step_idle hbox⟩
  | cons o rest =>
    cases ho : o.operation with
    | ok i =>
      obtain ⟨t, ht, -⟩ := everyOperationCompletes i _ (inv_withInbox hinv rest)
      exact .inl ⟨t, (step_operation hbox ho).trans ht⟩
    | error e =>
      obtain ⟨w, rfl, hw⟩ := operation_eq_error ho
      exact .inr ⟨w, rest, e, rfl, hw, step_no_operation hbox ho⟩

/-- Settles O3: the three ways an offer can be read, and the idle step. -/
theorem stepRunsTheDecodedOperation : Obligations.StepRunsTheDecodedOperation :=
  ⟨fun _ _ _ _ hbox hw => step_operation hbox hw, fun _ _ _ hbox => step_operation hbox rfl,
    fun _ _ _ _ hbox hw => step_no_operation hbox hw, fun _ hbox => step_idle hbox⟩

/-! ## What no operation changes -/

/-- A run changes neither the configuration nor what has been offered. -/
theorem run_cfg_inbox {bs : Bytes} {s t : State} {rs : List FeedResult} (h : run bs s = .next (t, rs)) :
    t.cfg = s.cfg ∧ t.inbox = s.inbox := by
  induction bs generalizing s rs with
  | nil => cases h; exact ⟨rfl, rfl⟩
  | cons b bs ih =>
    obtain ⟨u, r, rs', hu, hrun, -⟩ := run_cons_eq_next.1 h
    obtain ⟨hcfg, hinbox⟩ := feedByte_cfg_inbox hu
    exact ⟨(ih hrun).1.trans hcfg, (ih hrun).2.trans hinbox⟩

/-- Settles O53: the encoder changes the result alone, and no byte fed changes either. -/
theorem noOperationChangesTheCapacity : Obligations.NoOperationChangesTheCapacity := by
  intro i s t h
  cases hi : i.isEncoder with
  | true =>
    obtain ⟨r, hr⟩ := encoderIsPure i hi
    cases (hr s).symm.trans h
    exact ⟨rfl, rfl⟩
  | false =>
    obtain ⟨f, body, rfl⟩ | ⟨b, rfl⟩ | rfl := assembler_cases hi
    · obtain ⟨u, rs, hrun, rfl⟩ := run_of_exec_receiveRow h
      obtain ⟨hcfg, hinbox⟩ := run_cfg_inbox hrun
      exact ⟨hcfg, hinbox⟩
    · obtain ⟨u, r, hfeed, rfl⟩ := execFeed_eq_next.1 h
      obtain ⟨hcfg, hinbox⟩ := feedByte_cfg_inbox hfeed
      exact ⟨hcfg, hinbox⟩
    · cases h; exact ⟨rfl, rfl⟩

/-- Settles O20: every field but the configuration and what is offered is that of reset. -/
theorem resetOperationRestoresTheResetState : Obligations.ResetOperationRestoresTheResetState :=
  fun s => ⟨_, exec_reset s, rfl, Memory.read_nil, rfl, rfl⟩

/-- Settles O1: no cell is written, so no first byte gives a family. -/
theorem resetStateHoldsTheStatedValues : Obligations.ResetStateHoldsTheStatedValues := by
  refine ⟨rfl, Memory.read_nil, fun f hf => ?_, rfl, rfl⟩
  obtain ⟨b, hb, -⟩ := family_eq_next.1 hf
  obtain ⟨-, hread⟩ := readCell_eq_next.1 hb
  cases hread

end Sys2Proof.Machine
end

section
/-! What the assembler computes, it computes from the configuration, the cursor and the cells below it (R21): states that have
these in common are answered alike, and whatever relation they stand in is carried through a byte and a run. -/

namespace Sys2Proof.Machine

/-! ## Answers that are alike -/

/-- Both answer values that `R` relates, or both stop, for the same reason. -/
def AnswerAlike {α : Type} (R : α → α → Prop) : Res α → Res α → Prop
  | .next a, .next b => R a b
  | .fault r, .fault r' => r = r'
  | .refused r, .refused r' => r = r'
  | _, _ => False

theorem AnswerAlike.of_next {α : Type} {R : α → α → Prop} {a : α} {y : Res α} (h : AnswerAlike R (.next a) y) :
    ∃ b, y = .next b ∧ R a b := by
  cases y with
  | next b => exact ⟨b, rfl, h⟩
  | fault r | refused r => exact h.elim

theorem AnswerAlike.of_fault {α : Type} {R : α → α → Prop} {r : Fault} {y : Res α}
    (h : AnswerAlike R (.fault r) y) : y = .fault r := by
  cases y with
  | fault r' => exact congrArg _ (Eq.symm h)
  | next b | refused r' => exact h.elim

theorem AnswerAlike.of_refused {α : Type} {R : α → α → Prop} {r : Refusal} {y : Res α}
    (h : AnswerAlike R (.refused r) y) : y = .refused r := by
  cases y with
  | refused r' => exact congrArg _ (Eq.symm h)
  | next b | fault r' => exact h.elim

theorem AnswerAlike.eq {α : Type} {x y : Res α} (h : AnswerAlike Eq x y) : x = y := by
  cases x with
  | next a => obtain ⟨b, rfl, rfl⟩ := h.of_next; rfl
  | fault r => exact h.of_fault.symm
  | refused r => exact h.of_refused.symm

/-- An answer is like itself. -/
theorem answerAlike_refl {α : Type} {R : α → α → Prop} (hR : ∀ a, R a a) (x : Res α) : AnswerAlike R x x := by
  cases x with
  | next a => exact hR a
  | fault r | refused r => rfl

/-- Sequences are answered alike when both parts are. -/
theorem AnswerAlike.andThen {α β : Type} {R : α → α → Prop} {S : β → β → Prop} {x y : Res α} {f g : α → Res β}
    (hxy : AnswerAlike R x y) (hfg : ∀ a b, R a b → AnswerAlike S (f a) (g b)) :
    AnswerAlike S (andThen x f) (andThen y g) := by
  cases x <;> cases y
  case next.next a b => exact hfg a b hxy
  case fault.fault | refused.refused => exact hxy
  all_goals exact hxy.elim

/-- So is a sequence that begins with one and the same computation. -/
theorem answerAlike_andThen {α β : Type} {S : β → β → Prop} (x : Res α) {f g : α → Res β}
    (hfg : ∀ a, AnswerAlike S (f a) (g a)) : AnswerAlike S (andThen x f) (andThen x g) :=
  (answerAlike_refl (R := Eq) (fun _ => rfl) x).andThen fun a _ hab => hab ▸ hfg a

/-! ## What is computed from the bytes in progress -/

/-- The same configuration, cursor, and cells below the cursor. -/
def SameFrame (s t : State) : Prop := s.cfg = t.cfg ∧ s.pos = t.pos ∧ ∀ i, i < s.pos → s.buf.read i = t.buf.read i

section Congr
variable {s t : State} (h : SameFrame s t)
include h

theorem SameFrame.readCell {i : Nat} (hi : i < s.pos) : readCell s i = readCell t i := by
  obtain ⟨hcfg, -, hread⟩ := h
  simp only [Machine.readCell, hcfg, hread i hi]

theorem SameFrame.readCells {a n : Nat} (ha : a + n ≤ s.pos) : readCells s a n = readCells t a n := by
  induction n generalizing a with
  | zero => rfl
  | succ n ih => rw [Machine.readCells, Machine.readCells, h.readCell (by omega), ih (by omega)]

theorem SameFrame.inProgress : inProgress s = inProgress t := by
  obtain ⟨-, hpos, -⟩ := id h
  rw [Machine.inProgress, Machine.inProgress, h.readCells (by omega), hpos]

theorem SameFrame.family (h1 : 1 ≤ s.pos) : family s = family t := by
  rw [Machine.family, Machine.family, h.readCell h1]

theorem SameFrame.footerAt : footerAt s = footerAt t := by
  obtain ⟨-, hpos, -⟩ := id h
  unfold Machine.footerAt
  rw [← hpos]
  by_cases h8 : s.pos < 8
  · rw [if_pos h8, if_pos h8]
  · rw [if_neg h8, if_neg h8, h.family (by omega), h.readCells (by omega)]

theorem SameFrame.abandon : SameFrame (abandon s) (abandon t) := by
  obtain ⟨hcfg, -, -⟩ := h
  exact ⟨hcfg, rfl, fun i hi => by cases hi⟩

theorem SameFrame.stored (b : Byte) : SameFrame (stored b s) (stored b t) := by
  obtain ⟨hcfg, hpos, hread⟩ := h
  refine ⟨hcfg, congrArg (· + 1) hpos, fun i hi => ?_⟩
  rcases Nat.lt_succ_iff_lt_or_eq.1 hi with hlt | rfl
  · rw [stored_read_other b s (by omega), stored_read_other b t (by omega), hread i hlt]
  · rw [stored_read_cursor, hpos, stored_read_cursor]

/-- A store is answered alike, and where it succeeds either state is the one stored. -/
theorem SameFrame.storeByte (b : Byte) :
    AnswerAlike (fun u v => u = Machine.stored b s ∧ v = Machine.stored b t) (storeByte b s) (storeByte b t) := by
  obtain ⟨hcfg, hpos, -⟩ := id h
  by_cases hroom : s.pos < s.cfg.cap
  · rw [storeByte_eq_stored hroom, storeByte_eq_stored (by rwa [← hcfg, ← hpos])]
    exact ⟨rfl, rfl⟩
  · rw [Machine.storeByte, Machine.storeByte, if_neg hroom, if_neg (by rwa [← hcfg, ← hpos])]
    exact congrArg Fault.noSuchCell hpos

theorem SameFrame.bodyCase (b : Byte) : bodyCase b s = bodyCase b t := by
  refine AnswerAlike.eq ((h.storeByte b).andThen ?_)
  rintro _ _ ⟨rfl, rfl⟩
  have hst := h.stored b
  rw [hst.footerAt, hst.family (Nat.succ_pos _), hst.inProgress]
  exact answerAlike_refl (fun _ => rfl) _

/-- The case taken is the same. -/
theorem SameFrame.feedCase (b : Byte) : feedCase b s = feedCase b t := by
  obtain ⟨hcfg, hpos, -⟩ := id h
  unfold Machine.feedCase
  rw [← hcfg, ← hpos, h.bodyCase b]
  by_cases h0 : s.pos = 0
  · rw [if_pos h0, if_pos h0]
  · rw [if_neg h0, if_neg h0, h.family (by omega)]

end Congr

/-! ## Relations that bytes and runs carry through -/

/-- A relation between states with the same frame in progress that a store and an abandoned frame keep. -/
structure FrameRelation (R : State → State → Prop) : Prop where
  same : ∀ {s t}, R s t → SameFrame s t
  stored : ∀ {s t} (b : Byte), R s t → R (stored b s) (stored b t)
  abandon : ∀ {s t}, R s t → R (abandon s) (abandon t)

/-- Related states, with equal results. -/
def WithEqual {α : Type} (R : State → State → Prop) (x y : State × α) : Prop := R x.1 y.1 ∧ x.2 = y.2

section Carried
variable {R : State → State → Prop} (hR : FrameRelation R)
include hR

theorem FrameRelation.applyCase {s t : State} (h : R s t) (c : FeedCase) (b : Byte) :
    AnswerAlike (WithEqual R) (applyCase c b s) (applyCase c b t) := by
  have hstore := (hR.same h).storeByte b
  cases c with
  | start | headerAccept | append | hold =>
    refine hstore.andThen ?_
    rintro _ _ ⟨rfl, rfl⟩
    exact ⟨hR.stored b h, rfl⟩
  | huntDiscard | headerMismatch | overflow => exact ⟨hR.abandon h, rfl⟩
  | emit =>
    refine hstore.andThen ?_
    rintro _ _ ⟨rfl, rfl⟩
    have hst := hR.stored b h
    rw [(hR.same hst).family (Nat.succ_pos _), (hR.same hst).inProgress]
    exact answerAlike_andThen _ fun f => answerAlike_andThen _ fun F => ⟨hR.abandon hst, rfl⟩

theorem FrameRelation.feedByte {s t : State} (h : R s t) (b : Byte) :
    AnswerAlike (WithEqual R) (feedByte b s) (feedByte b t) := by
  rw [Machine.feedByte, Machine.feedByte, (hR.same h).feedCase b]
  exact answerAlike_andThen _ fun c => hR.applyCase h c b

theorem FrameRelation.run {s t : State} (h : R s t) (bs : Bytes) :
    AnswerAlike (WithEqual R) (run bs s) (run bs t) := by
  induction bs generalizing s t with
  | nil => exact ⟨h, rfl⟩
  | cons b bs ih =>
    refine (hR.feedByte h b).andThen fun ⟨u, r⟩ ⟨v, r'⟩ ⟨huv, hr⟩ => ?_
    refine (ih huv).andThen fun ⟨u', rs⟩ ⟨v', rs'⟩ ⟨huv', hrs⟩ => ⟨huv', ?_⟩
    exact congrArg₂ recordResult hr hrs

end Carried

end Sys2Proof.Machine
end

section
/-! Three relations that bytes and runs carry through, and what follows for operations and steps: the cells at `pos` and
beyond are unobservable, so is the kept result, and a reception is its bytes fed one by one. -/

namespace Sys2Proof.Machine

/-! ## States that agree (R21, R108) -/

theorem Agree.sameFrame {s t : State} (h : Agree s t) : SameFrame s t := by
  obtain ⟨hcfg, hpos, -, hread⟩ := h
  exact ⟨hcfg, hpos, hread⟩

theorem SameFrame.agree {s t : State} (h : SameFrame s t) (hinbox : s.inbox = t.inbox) : Agree s t := by
  obtain ⟨hcfg, hpos, hread⟩ := h
  exact ⟨hcfg, hpos, hinbox, hread⟩

theorem Agree.inbox {s t : State} (h : Agree s t) : s.inbox = t.inbox := by
  obtain ⟨-, -, hinbox, -⟩ := h
  exact hinbox

theorem frameRelation_agree : FrameRelation Agree where
  same h := h.sameFrame
  stored b h := (h.sameFrame.stored b).agree h.inbox
  abandon h := h.sameFrame.abandon.agree h.inbox

/-- States that agree, with equal results kept. -/
def ResultsAgree (s t : State) : Prop := Agree s t ∧ s.result = t.result

/-- Keeping equal results: `Agree` does not look at them. -/
theorem Agree.withResult {s t : State} (h : Agree s t) {r r' : StepResult} (hr : r = r') :
    ResultsAgree (s.withResult r) (t.withResult r') := ⟨h, hr⟩

theorem Agree.exec {s t : State} (h : Agree s t) (i : Instr) : AnswerAlike ResultsAgree (exec i s) (exec i t) := by
  cases hi : i.isEncoder with
  | true =>
    obtain ⟨r, hr⟩ := encoderIsPure i hi
    rw [hr s, hr t]
    exact h.withResult rfl
  | false =>
    obtain ⟨f, body, rfl⟩ | ⟨b, rfl⟩ | rfl := assembler_cases hi
    · rw [exec_receiveRow, exec_receiveRow]
      exact (frameRelation_agree.run h _).andThen fun _ _ ⟨huv, hrs⟩ => huv.withResult (congrArg StepResult.ran hrs)
    · exact (frameRelation_agree.feedByte h b).andThen fun _ _ ⟨huv, hr⟩ =>
        huv.withResult (congrArg StepResult.fed hr)
    · obtain ⟨hcfg, -, hinbox, -⟩ := h
      exact ⟨⟨hcfg, rfl, hinbox, fun _ _ => rfl⟩, rfl⟩

/-- Taking the same offer keeps the agreement. -/
theorem Agree.withInbox {s t : State} (h : Agree s t) (rest : List Offer) :
    Agree { s with inbox := rest } { t with inbox := rest } := by
  obtain ⟨hcfg, hpos, -, hread⟩ := h
  exact ⟨hcfg, hpos, rfl, hread⟩

theorem Agree.step {s t : State} (h : Agree s t) : AnswerAlike ResultsAgree (step s) (step t) := by
  cases hbox : s.inbox with
  | nil =>
    rw [step_idle hbox, step_idle (h.inbox ▸ hbox)]
    exact h.withResult rfl
  | cons o rest =>
    have hbox' : t.inbox = o :: rest := h.inbox ▸ hbox
    cases ho : o.operation with
    | ok i =>
      rw [step_operation hbox ho, step_operation hbox' ho]
      exact (h.withInbox rest).exec i
    | error e =>
      rw [step_no_operation hbox ho, step_no_operation hbox' ho]
      rfl

/-- Settles O55: the two steps are answered alike; the clauses are the three answers the first can give. -/
theorem historyIsUnobservable : Obligations.HistoryIsUnobservable := by
  intro s t h
  refine ⟨fun s' hs => ?_, fun r hs => ?_, fun r hs => ?_⟩ <;> have halike := hs ▸ h.step
  · obtain ⟨t', ht, hagree, hresult⟩ := halike.of_next
    exact ⟨t', ht, hagree, hresult⟩
  · exact halike.of_refused
  · exact halike.of_fault

/-! ## The kept result (R24) -/

theorem frameRelation_withResult (r : StepResult) : FrameRelation fun s t => t = s.withResult r where
  same h := by subst h; exact ⟨rfl, rfl, fun _ _ => rfl⟩
  stored b h := by subst h; rfl
  abandon h := by subst h; rfl

/-- No operation reads the result kept before it: it writes its own over it. -/
theorem exec_withResult (i : Instr) (s : State) (r : StepResult) : exec i (s.withResult r) = exec i s := by
  cases hi : i.isEncoder with
  | true =>
    obtain ⟨q, hq⟩ := encoderIsPure i hi
    rw [hq, hq]; rfl
  | false =>
    have hrel := frameRelation_withResult r
    refine (AnswerAlike.eq ?_).symm
    obtain ⟨f, body, rfl⟩ | ⟨b, rfl⟩ | rfl := assembler_cases hi
    · rw [exec_receiveRow, exec_receiveRow]
      refine (hrel.run rfl _).andThen ?_
      rintro ⟨u, rs⟩ ⟨_, _⟩ ⟨rfl, rfl⟩; rfl
    · refine (hrel.feedByte rfl b).andThen ?_
      rintro ⟨u, q⟩ ⟨_, _⟩ ⟨rfl, rfl⟩; rfl
    · rfl

/-- Nor does a step: an idle one writes over it too. -/
theorem step_withResult (s : State) (r : StepResult) : step (s.withResult r) = step s := by
  cases hbox : s.inbox with
  | nil =>
    have hbox' : (s.withResult r).inbox = [] := hbox
    rw [step_idle hbox, step_idle hbox']; rfl
  | cons o rest =>
    have hbox' : (s.withResult r).inbox = o :: rest := hbox
    cases ho : o.operation with
    | ok i =>
      rw [step_operation hbox ho, step_operation hbox' ho]
      exact exec_withResult i { s with inbox := rest } r
    | error e => rw [step_no_operation hbox ho, step_no_operation hbox' ho]

/-- Settles O54: operations and steps write their own result over the kept one. -/
theorem resultsAreNotReadableLater : Obligations.ResultsAreNotReadableLater :=
  fun s r => ⟨fun i => exec_withResult i s r, step_withResult s r⟩

/-- Settles O56: the encoder changes the kept result alone, which the assembler's operation does not read. -/
theorem encoderAndAssemblerCommute : Obligations.EncoderAndAssemblerCommute := by
  intro e a s t u v he _ hat heu hav
  obtain ⟨r, hr⟩ := encoderIsPure e he
  cases (hr s).symm.trans heu
  have hsame := exec_withResult a s (.encoded r)
  cases (hav.symm.trans hsame).trans hat
  exact ⟨rfl, _, hr _, rfl, rfl, rfl, rfl, rfl⟩

/-! ## A reception and its bytes (R109) -/

/-- The same assembler: configuration, cursor and buffer. -/
def SameAssembler (s t : State) : Prop := s.cfg = t.cfg ∧ s.pos = t.pos ∧ s.buf = t.buf

theorem frameRelation_sameAssembler : FrameRelation SameAssembler where
  same := fun ⟨hcfg, hpos, hbuf⟩ => ⟨hcfg, hpos, fun i _ => by rw [hbuf]⟩
  stored := fun b ⟨hcfg, hpos, hbuf⟩ => ⟨hcfg, congrArg (· + 1) hpos, by simp only [stored, hpos, hbuf]⟩
  abandon := fun ⟨hcfg, _, hbuf⟩ => ⟨hcfg, rfl, hbuf⟩

/-- A step that answers is the first of a run of the machine. -/
theorem core_run_succ {s t : State} (h : step s = .next t) (n : Nat) :
    Host.Core.run core (n + 1) s = Host.Core.run core n t := by
  have hcore : core.step s = .next t := h
  simp only [Host.Core.run, hcore]

/-- Its result comes before those of the later steps. -/
theorem stepResults_succ {s t : State} (h : step s = .next t) (n : Nat) :
    stepResults (n + 1) s = t.result.record (stepResults n t) := by
  simp only [stepResults, h]

/-- A byte offered as its `FEED` word is fed by the next step. -/
theorem step_feed_word {s t : State} {b : Byte} {rest : List Offer} {r : FeedResult} (hbox : s.inbox = .word [b] :: rest)
    (h : feedByte b { s with inbox := rest } = .next (t, r)) : step s = .next (t.withResult (.fed r)) :=
  (step_operation hbox rfl).trans (exec_feed_of_feedByte h)

/-- Bytes that run through from a state can be offered one by one to the same assembler: the machine takes as many steps,
to the assembler the run ends in, with the results of the run. -/
theorem core_run_of_run {bs : Bytes} {s t : State} {rs : List FeedResult} (h : run bs s = .next (t, rs))
    {s' : State} (hsame : SameAssembler s s') {rest : List Offer}
    (hbox : s'.inbox = bs.map (fun b => Offer.word [b]) ++ rest) :
    ∃ u, Host.Core.run core bs.length s' = .next u ∧ SameAssembler t u ∧ u.inbox = rest ∧
      stepResults bs.length s' = rs := by
  induction bs generalizing s s' rs with
  | nil => cases h; exact ⟨s', rfl, hsame, hbox, rfl⟩
  | cons b bs ih =>
    obtain ⟨v, r, rs', hfeed, hrun, rfl⟩ := run_cons_eq_next.1 h
    have htaken : SameAssembler s { s' with inbox := bs.map (fun b => Offer.word [b]) ++ rest } := hsame
    obtain ⟨⟨v', r'⟩, hfeed', hsame', rfl⟩ := (hfeed ▸ frameRelation_sameAssembler.feedByte htaken b).of_next
    have hstep := step_feed_word hbox hfeed'
    obtain ⟨u, hu, hsameu, hinbox, hresults⟩ :=
      ih hrun (s' := v'.withResult (.fed r)) hsame' (feedByte_cfg_inbox hfeed').2
    refine ⟨u, (core_run_succ hstep _).trans hu, hsameu, hinbox, ?_⟩
    rw [List.length_cons, stepResults_succ hstep, hresults]; rfl

/-- Settles O27: the reception is a run, and offering its bytes changes no part of the assembler. -/
theorem receptionIsItsBytesFedOneByOne : Obligations.ReceptionIsItsBytesFedOneByOne := by
  intro s t f body h
  obtain ⟨v, rs, hrun, rfl⟩ := run_of_exec_receiveRow h
  obtain ⟨u, hu, ⟨hcfg, hpos, hbuf⟩, hinbox, hresults⟩ :=
    core_run_of_run hrun (s' := offerBytes (frameOf f body) s) ⟨rfl, rfl, rfl⟩ rfl
  exact ⟨u, hu, hcfg.symm, hpos.symm, hbuf.symm, hinbox.trans (run_cfg_inbox hrun).2.symm,
    congrArg StepResult.ran hresults.symm⟩

end Sys2Proof.Machine
end

section
/-! What the claims say of `FEED` case by case (R91 to R100), of the cases together (R102, R104, R182, R190), and of an
emitted frame (R105). -/

namespace Sys2Proof.Machine

/-- Keeping a result keeps the bytes in progress. -/
@[simp] theorem inProgress_withResult (s : State) (r : StepResult) : inProgress (s.withResult r) = inProgress s :=
  inProgress_congr rfl rfl rfl

/-- `FEED b` where its case stores the byte without an emission. -/
theorem exec_feed_of_stores {b : Byte} {s : State} {c : FeedCase} (hc : feedCase b s = .next c)
    (hst : c.storesAt s = some s.pos) (hne : c ≠ .emit) (hroom : s.pos < s.cfg.cap) :
    exec (.feed b) s = .next ((stored b s).withResult (.fed silent)) :=
  exec_feed_of_feedByte (feedByte_of_stores hc hst hne hroom)

/-- `FEED b` where a row applies, from the effect of its case. -/
theorem exec_feed_of_applies {s : State} {b : Byte} {F : Bytes} (h : Readable s F) {c : FeedCase}
    (hc : CaseApplies s b F c) :
    ∃ f, (1 ≤ s.pos → family s = .next f) ∧
      exec (.feed b) s = .next ((c.effect f F b s).1.withResult (.fed (c.effect f F b s).2)) := by
  obtain ⟨f, hf, hfeed⟩ := feedByte_of_applies h hc
  exact ⟨f, hf, execFeed_eq_next.2 ⟨(c.effect f F b s).1, (c.effect f F b s).2, hfeed, rfl⟩⟩

/-! ## Start and header (R91, R93) -/

/-- Settles O9: the start case stores at cell 0, and the byte stored there is what the family is read from. -/
theorem startStoresTheFirstHeaderByte : Obligations.StartStoresTheFirstHeaderByte := by
  intro s b h0 hb
  have hcase : feedCase b s = .next .start :=
    feedCase_eq_next.2 (.inl ⟨h0, (if_pos ((isSome_familyOf b).2 hb)).symm⟩)
  have hroom : s.pos < s.cfg.cap := by have := s.cfg.capOk; omega
  have hfam : familyOf b = some (if b = 0xF4 then .telemetry else .ack) := by
    rcases hb with rfl | rfl <;> rfl
  have hread := stored_read_cursor b s
  have hother := fun a => stored_read_other b s (a := a)
  rw [h0] at hread hother
  exact ⟨_, exec_feed_of_stores hcase rfl (by decide) hroom, congrArg (· + 1) h0, hread, hother,
    family_stored_start h0 hfam, rfl, rfl, rfl⟩

/-- The expected bytes of the header state are those of the header (R61, R93). -/
theorem hdr_expected (f : Family) {i : Nat} (h1 : 1 ≤ i) (h3 : i ≤ 3) :
    f.hdr[i]? = some (match f with
      | .telemetry => if i = 1 then 0xF3 else if i = 2 then 0xF2 else 0xF1
      | .ack => if i = 1 then 0xFC else if i = 2 then 0xFB else 0xFA) := by
  obtain rfl | rfl | rfl : i = 1 ∨ i = 2 ∨ i = 3 := by omega
  all_goals cases f <;> rfl

/-- On a state that meets the invariants, the frame in progress is of the state's family (R29). -/
theorem frame_of_inv {s : State} {F : Bytes} {f : Family} (hinv : Inv s) (h1 : 1 ≤ s.pos)
    (hF : inProgress s = .next F) (hf : family s = .next f) : StartsLike f F ∧ FootersHeld f F := by
  obtain ⟨-, rfl | ⟨g, hstart, hheld⟩⟩ := hinv.readable hF
  · have hlen := inProgress_length hF
    simp at hlen; omega
  · have hhead := (family_of_inProgress hF h1).1 hf
    rw [hstart.familyOf_head] at hhead
    cases hhead
    exact ⟨hstart, hheld⟩

/-- Settles O11: the byte is the header's next one, so the header grows by it. -/
theorem headerAcceptStoresTheExpectedByte : Obligations.HeaderAcceptStoresTheExpectedByte := by
  intro s b f h1 h3 hf hb
  have hexp : f.hdr[s.pos]? = some b := hb ▸ hdr_expected f h1 h3
  have hcase : feedCase b s = .next .headerAccept :=
    feedCase_eq_next.2 (.inr (.inl ⟨h1, h3, f, hf, (if_pos hexp).symm⟩))
  have hroom : s.pos < s.cfg.cap := by have := s.cfg.capOk; omega
  refine ⟨_, exec_feed_of_stores hcase rfl (by decide) hroom, rfl, stored_read_cursor b s,
    fun a => stored_read_other b s, rfl, rfl, rfl, fun hinv hpos => ?_⟩
  obtain ⟨F, hF, -⟩ := hinv.frame
  have hlen : F.length = 3 := (inProgress_length hF).trans hpos
  have hgrown : StartsLike f (F ++ [b]) := (frame_of_inv hinv h1 hF hf).1.snoc fun _ => by rwa [hlen, ← hpos]
  have hfour := hgrown.take_four (by simp [hlen])
  rw [List.take_of_length_le (by simp [hlen])] at hfour
  rw [inProgress_withResult, inProgress_stored hroom hF, hfour]

/-! ## The body (R95 to R100) -/

/-- Settles O13: without a footer the case is append. -/
theorem appendStoresTheByte : Obligations.AppendStoresTheByte := by
  intro s b F f h4 hroom hF hf he
  have hcase : feedCase b s = .next .append := by rw [feedCase_body h4 hroom hF hf, if_neg he]
  exact ⟨_, exec_feed_of_stores hcase rfl (by decide) hroom, rfl, stored_read_cursor b s,
    fun a => stored_read_other b s, by rw [inProgress_withResult, inProgress_stored hroom hF], rfl, rfl, rfl⟩

/-- Settles O19: with a held candidate the case is hold, which stores as append does. -/
theorem holdKeepsAccumulating : Obligations.HoldKeepsAccumulating := by
  intro s b F f h4 hroom hF hf he hh
  have hcase : feedCase b s = .next .hold := by rw [feedCase_body h4 hroom hF hf, if_pos he, if_pos hh]
  exact ⟨⟨_, exec_feed_of_stores hcase rfl (by decide) hroom, rfl, stored_read_cursor b s,
    fun a => stored_read_other b s, by rw [inProgress_withResult, inProgress_stored hroom hF], rfl, rfl, rfl⟩,
    .hold, hcase, rfl⟩

/-- Settles O17: with an un-held candidate the case is emit, and the candidate is the bytes in progress with the new one. -/
theorem emitReturnsTheWholeFrame : Obligations.EmitReturnsTheWholeFrame := by
  intro s b F f h4 hroom hF hf he hh
  have h1 : 1 ≤ s.pos := by omega
  have hlen : (F ++ [b]).length = s.pos + 1 := by simp [inProgress_length hF]
  obtain ⟨h8, hfooter⟩ := he
  have hcase : feedCase b s = .next .emit := by
    rw [feedCase_body h4 hroom hF hf, if_pos ⟨h8, hfooter⟩, hh, if_neg Bool.false_ne_true]
  have hexec := exec_feed_of_feedByte (feedByte_of_emit hcase h1 hroom hF hf)
  rw [hlen] at h8 hfooter
  refine ⟨_, hexec, rfl, stored_read_cursor b s, fun a => stored_read_other b s, rfl, hlen, h8, hroom,
    fun hinv => ?_, hfooter, rfl, rfl⟩
  have hFlen := inProgress_length hF
  have hgrown : StartsLike f (F ++ [b]) := (frame_of_inv hinv h1 hF hf).1.snoc fun _ => by omega
  exact hgrown.take_four (by omega)

/-- The two footers differ. -/
theorem ftr_ne_of_ne {f g : Family} (h : f ≠ g) : f.ftr ≠ g.ftr := by
  cases f <;> cases g
  case telemetry.telemetry | ack.ack => exact absurd rfl h
  all_goals decide

/-- Settles O14: the footer test is that of the bytes in progress, taken byte by byte. -/
theorem footerTestComparesTheOwnFooter : Obligations.FooterTestComparesTheOwnFooter := by
  refine ⟨fun s F f hF hf h8 => ?_, fun s h => if_pos h, fun s F f g hF hf hne hg => ?_⟩
  · have hlen := inProgress_length hF
    have hbytes := endsInFooter_take (f := f) (W := F) (k := s.pos) (by omega)
    rw [List.take_of_length_le (by omega)] at hbytes
    rw [footerAt_eq hF hf]
    exact congrArg _ (decide_eq_decide.2 (hbytes.trans (and_iff_right h8)))
  · have hnot : ¬ EndsInFooter f F := fun he => ftr_ne_of_ne hne (he.2.symm.trans hg.2)
    rw [footerAt_eq hF hf, decide_eq_false hnot]

/-! ## The overflow (R97, R182) -/

/-- Settles O15: at `pos = CAP`, which is at least 8, the case is overflow. -/
theorem overflowDropsTheFrameAndLogs : Obligations.OverflowDropsTheFrameAndLogs := by
  intro s b hcap
  have h4 : 4 ≤ s.pos := by have := s.cfg.capOk; omega
  exact exec_feed_of_feedByte (feedByte_of_overflow (feedCase_eq_next.2 (.inr (.inr (.inl ⟨h4, hcap, rfl⟩)))))

/-- The row of the overflow case is the one that applies at `pos = CAP`. -/
theorem CaseApplies.eq_overflow_iff {s : State} {b : Byte} {F : Bytes} {c : FeedCase} (hc : CaseApplies s b F c) :
    c = .overflow ↔ s.pos = s.cfg.cap := by
  have hcap := s.cfg.capOk
  cases c with
  | overflow => exact iff_of_true rfl hc.2
  | start | huntDiscard => exact iff_of_false (by decide) (by have h0 := hc.1; omega)
  | headerAccept | headerMismatch => exact iff_of_false (by decide) (by have h3 := hc.2.1; omega)
  | append | hold | emit => exact iff_of_false (by decide) (Nat.ne_of_lt hc.2.1)

/-- Only the overflow case logs (R182). -/
theorem effect_log (c : FeedCase) (f : Family) (F : Bytes) (b : Byte) (s : State) :
    (c.effect f F b s).2.log = some .overflow ↔ c = .overflow := by
  cases c with
  | overflow => exact iff_of_true rfl rfl
  | _ => exact iff_of_false nofun nofun

/-- Only the emit case emits, the frame in progress with the new byte (R98). -/
theorem effect_emit {c : FeedCase} {f g : Family} {F G : Bytes} {b : Byte} {s : State}
    (h : (c.effect f F b s).2.emit = some (g, G)) : c = .emit ∧ f = g ∧ F ++ [b] = G := by
  cases c with
  | emit => cases h; exact ⟨rfl, rfl, rfl⟩
  | _ => cases h

/-- Settles O16: the overflow case is the one that applies at `pos = CAP`, and the one that logs. -/
theorem overflowIsRaisedExactlyAtCapacity : Obligations.OverflowIsRaisedExactlyAtCapacity := by
  intro s b F hread
  obtain ⟨c, hc⟩ := exists_caseApplies hread b
  obtain ⟨f, -, hexec⟩ := exec_feed_of_applies hread hc
  have hiff := hc.eq_overflow_iff
  refine ⟨_, _, hexec, rfl, (effect_log c f F b s).trans hiff, ?_, fun hcap => ?_⟩
  · rw [feedCase_of_applies hread hc, ← hiff]
    exact ⟨fun h => by cases h; rfl, congrArg _⟩
  · cases hiff.2 hcap
    exact ⟨rfl, rfl, rfl⟩

/-! ## The cases together -/

/-- Settles O22: the case whose row applies completes. -/
theorem feedIsTotal : Obligations.FeedIsTotal := by
  intro s b F hread
  obtain ⟨c, hc⟩ := exists_caseApplies hread b
  obtain ⟨f, -, hexec⟩ := exec_feed_of_applies hread hc
  exact ⟨_, _, hexec, rfl⟩

theorem cls_noiseHunting {s : State} (h : s.pos = 0) : s.cls = .noiseHunting := if_pos h

theorem cls_header {s : State} (h1 : 1 ≤ s.pos) (h3 : s.pos ≤ 3) : s.cls = .header := by
  rw [State.cls, if_neg (by omega), if_pos h3]

theorem cls_body {s : State} (h4 : 4 ≤ s.pos) : s.cls = .body := by
  rw [State.cls, if_neg (by omega), if_neg (by omega)]

/-- A header state that stores a byte is in the header or the body. -/
theorem cls_stored_header (b : Byte) (s : State) : (stored b s).cls = .header ∨ (stored b s).cls = .body := by
  rcases Nat.lt_or_ge 3 (stored b s).pos with h4 | h3
  · exact .inr (cls_body h4)
  · exact .inl (cls_header (Nat.succ_pos _) h3)

/-- The case whose row applies moves between the classes as R102 lists. -/
theorem caseMoves_effect {s : State} {b : Byte} {F : Bytes} {c : FeedCase} (hc : CaseApplies s b F c) (f : Family) :
    CaseMoves c s.cls (c.effect f F b s).1.cls := by
  cases c with
  | start =>
    obtain ⟨h0, -⟩ := hc
    exact ⟨cls_noiseHunting h0, cls_header (Nat.succ_pos _) (by simp [FeedCase.effect, h0])⟩
  | huntDiscard => exact ⟨cls_noiseHunting hc.1, cls_noiseHunting rfl⟩
  | headerAccept =>
    obtain ⟨h1, h3, -⟩ := hc
    exact ⟨cls_header h1 h3, cls_stored_header b s⟩
  | headerMismatch =>
    obtain ⟨h1, h3, -⟩ := hc
    exact ⟨cls_header h1 h3, cls_noiseHunting rfl⟩
  | overflow | emit => exact ⟨cls_body hc.1, cls_noiseHunting rfl⟩
  | append | hold => exact ⟨cls_body hc.1, cls_body (Nat.le_succ_of_le hc.1)⟩

/-- The cursor goes one on or back to 0. -/
theorem effect_pos (c : FeedCase) (f : Family) (F : Bytes) (b : Byte) (s : State) :
    (c.effect f F b s).1.pos = s.pos + 1 ∨ (c.effect f F b s).1.pos = 0 := by
  cases c with
  | start | headerAccept | append | hold => exact .inl rfl
  | huntDiscard | headerMismatch | overflow | emit => exact .inr rfl

/-- Settles O21: the classes by the case, the cursor by whether the case keeps its byte. -/
theorem feedMovesBetweenClassesAsListed : Obligations.FeedMovesBetweenClassesAsListed := by
  intro s b F hread
  obtain ⟨c, hc⟩ := exists_caseApplies hread b
  obtain ⟨f, -, hexec⟩ := exec_feed_of_applies hread hc
  have hpos := effect_pos c f F b s
  refine ⟨c, _, feedCase_of_applies hread hc, hexec, caseMoves_effect hc f, hpos, fun h1 => ?_⟩
  rw [withResult_pos] at h1
  omega

/-- Settles O23: of the things a byte can do, one emits and another logs; an emission needs room for its byte. -/
theorem aStepNeverEmitsAndLogs : Obligations.AStepNeverEmitsAndLogs := by
  intro s t b r h hr
  obtain ⟨u, r', hfeed, rfl⟩ := execFeed_eq_next.1 h
  cases hr
  rcases feedByte_eq_next hfeed with ⟨-, rfl, -⟩ | ⟨-, -, rfl, -⟩ | ⟨-, -, rfl, -⟩ | ⟨v, f, F, hs, -, -, -, -, -, rfl, -⟩
  · exact ⟨.inl rfl, fun _ => rfl⟩
  · exact ⟨.inl rfl, fun _ => rfl⟩
  · exact ⟨.inl rfl, fun _ => rfl⟩
  · have hroom := (storeByte_eq_next.1 hs).1
    exact ⟨.inr rfl, fun hcap => by omega⟩

/-- Settles O24: what a byte fed writes, and what it leaves. -/
theorem feedWritesAtMostTheCursorCell : Obligations.FeedWritesAtMostTheCursorCell := by
  intro s t b h
  obtain ⟨u, r, hfeed, rfl⟩ := execFeed_eq_next.1 h
  obtain ⟨hcfg, hinbox⟩ := feedByte_cfg_inbox hfeed
  obtain ⟨hother, hcell⟩ := feedByte_writes hfeed
  exact ⟨hcfg, hinbox, hother, hcell⟩

/-- A run writes only the cells it names, and these exist. -/
theorem run_writes {bs : Bytes} {s t : State} {rs : List FeedResult} (h : run bs s = .next (t, rs)) :
    (∀ a, a ∉ runStoresAt bs s → t.buf.read a = s.buf.read a) ∧ ∀ a ∈ runStoresAt bs s, a < s.cfg.cap := by
  induction bs generalizing s rs with
  | nil => cases h; exact ⟨fun _ _ => rfl, fun a ha => by cases ha⟩
  | cons b bs ih =>
    obtain ⟨u, r, rs', hfeed, hrun, -⟩ := run_cons_eq_next.1 h
    obtain ⟨hother, hcell⟩ := feedByte_writes hfeed
    obtain ⟨hothers, hcells⟩ := ih hrun
    have hnames : ∀ a, a ∈ runStoresAt (b :: bs) s ↔ feedStoresAt b s = some a ∨ a ∈ runStoresAt bs u := by
      simp [runStoresAt, hfeed]
    refine ⟨fun a ha => ?_, fun a ha => ?_⟩
    · obtain ⟨hfirst, hlater⟩ := not_or.1 (mt (hnames a).2 ha)
      exact (hothers a hlater).trans (hother a hfirst)
    · rcases (hnames a).1 ha with hfirst | hlater
      · exact (hcell a hfirst).2.1
      · exact (feedByte_cfg_inbox hfeed).1 ▸ hcells a hlater

/-- Settles O25: the reception is the run of the frame's bytes. -/
theorem receptionWritesOnlyItsCells : Obligations.ReceptionWritesOnlyItsCells := by
  intro s t f body h
  obtain ⟨u, rs, hrun, rfl⟩ := run_of_exec_receiveRow h
  obtain ⟨hcfg, hinbox⟩ := run_cfg_inbox hrun
  obtain ⟨hother, hcells⟩ := run_writes hrun
  exact ⟨hcfg, hinbox, hother, hcells⟩

/-! ## An emitted frame (R105) -/

/-- Settles O29: an emission is the emit case, and the bytes before the last were a frame in progress. -/
theorem emittedFrameIsWellFormed : Obligations.EmittedFrameIsWellFormed := by
  intro s t b f G log hinv h hr
  obtain ⟨F, hread, -⟩ := readable_of_inv hinv
  obtain ⟨c, hc⟩ := exists_caseApplies hread b
  obtain ⟨g, hg, hexec⟩ := exec_feed_of_applies hread hc
  cases hexec.symm.trans h
  have hemit : (c.effect g F b s).2.emit = some (f, G) := congrArg FeedResult.emit (StepResult.fed.inj hr)
  obtain ⟨rfl, rfl, rfl⟩ := effect_emit hemit
  obtain ⟨h4, hroom, g', hg', ⟨h8, hfooter⟩, hh⟩ := hc
  have h1 : 1 ≤ s.pos := by omega
  cases (hg h1).symm.trans hg'
  have hlen := inProgress_length hread.bytes
  obtain ⟨hstart, hheld⟩ := frame_of_inv hinv h1 hread.bytes hg'
  have hgrown : StartsLike g (F ++ [b]) := hstart.snoc fun _ => by omega
  refine ⟨h8, by simp; omega, hgrown.take_four (by omega), hfooter, hh, fun k hk8 hk he => ?_⟩
  have hkF : k ≤ F.length := by simp at hk; omega
  rw [List.take_append_of_le_length hkF] at he ⊢
  have htake : (F.take k).length = k := List.length_take_of_le hkF
  exact hheld k hkF ⟨by omega, by rw [htake]; exact he⟩

end Sys2Proof.Machine
end

section
/-! Whole frames and streams (R106, R107, R97, R168): what a run returns is found on the assembler over a list, which
keeps a frame in progress as long as every footer in it is held. -/

namespace Sys2Proof.Machine

/-- Settles O18: the tests of `hold` are its conjuncts. -/
theorem holdIsTheStatedPredicate : Obligations.HoldIsTheStatedPredicate := by
  intro f F
  simp only [hold, Bool.and_eq_true, decide_eq_true_iff, and_assoc]

/-! ## Beginnings of a frame -/

/-- A frame that begins with the header of `f` starts like `f`, and so does each of its non-empty beginnings. -/
theorem startsLike_take {f : Family} {W : Bytes} (h : W.take 4 = f.hdr) {k : Nat} (hk : 1 ≤ k) :
    StartsLike f (W.take k) := by
  refine ⟨fun hnil => ?_, fun i h4 hi => ?_⟩
  · rcases List.take_eq_nil_iff.1 hnil with h0 | rfl
    · omega
    · cases f <;> cases h
  · rw [List.getElem?_take_of_lt (by simp at hi; omega), ← h, List.getElem?_take_of_lt h4]

/-- What a frame in progress starts like, its non-empty beginnings do. -/
theorem StartsLike.of_append {f : Family} {F G : Bytes} (h : StartsLike f (F ++ G)) (hne : F ≠ []) : StartsLike f F := by
  refine ⟨hne, fun i h4 hi => ?_⟩
  rw [← h.2 i h4 (by simp; omega), List.getElem?_append_left hi]

/-- The footers of a beginning are footers of the whole. -/
theorem FootersHeld.of_append {f : Family} {F G : Bytes} (h : FootersHeld f (F ++ G)) : FootersHeld f F := by
  intro k hk he
  have hheld := h k (by simp; omega)
  rw [List.take_append_of_le_length hk] at hheld
  exact hheld he

/-- Where no beginning ends in an un-held footer, every footer is held. -/
theorem footersHeld_take {f : Family} {W : Bytes} {n : Nat} (h : ∀ k, k ≤ n → ¬ UnheldFooterAt f W k) :
    FootersHeld f (W.take n) := by
  intro k hk he
  obtain ⟨hkn, hkW⟩ := le_min_iff.1 (List.length_take ▸ hk)
  rw [List.take_take, min_eq_left hkn] at he ⊢
  by_contra hh
  exact h k hkn ⟨hkW, he, Bool.eq_false_iff.2 hh⟩

/-- What is closed by the footer ends in it. -/
theorem endsInFooter_append {f : Family} {F : Bytes} (h : 4 ≤ F.length) : EndsInFooter f (F ++ f.ftr) := by
  have hcut : (F ++ f.ftr).length - 4 = F.length := by simp
  exact ⟨by simp; omega, hcut ▸ List.drop_left⟩

theorem endsInFooter_frameOf (f : Family) (body : Bytes) : EndsInFooter f (frameOf f body) :=
  endsInFooter_append (by simp)

/-! ## The assembler over a list, byte by byte -/

/-- A byte that goes on with a frame of family `f` and completes no un-held footer is kept, if there is room. -/
theorem listFeed_keeps {cap : Nat} {F : Bytes} {b : Byte} {f : Family} (hstart : StartsLike f (F ++ [b]))
    (hroom : F.length < cap) (hheld : EndsInFooter f (F ++ [b]) → hold f (F ++ [b]) = true) :
    listFeed cap F b = (F ++ [b], silent) := by
  by_cases hne : F = []
  · subst hne
    have hfam : familyOf b = some f := hstart.familyOf_head
    rw [listFeed_nil, hfam]; rfl
  rw [listFeed_of_family (hstart.of_append hne).familyOf_head]
  by_cases h3 : F.length ≤ 3
  · have hnext := hstart.2 F.length (by omega) (by simp)
    rw [List.getElem?_concat_length] at hnext
    rw [if_pos h3, if_pos hnext.symm]
  rw [if_neg h3, if_neg (by omega)]
  by_cases he : EndsInFooter f (F ++ [b])
  · rw [if_pos he, if_pos (hheld he)]
  · rw [if_neg he]

/-- A byte that completes an un-held footer emits. -/
theorem listFeed_emits {cap : Nat} {F : Bytes} {b : Byte} {f : Family} (hstart : StartsLike f (F ++ [b]))
    (hroom : F.length < cap) (he : EndsInFooter f (F ++ [b])) (hh : hold f (F ++ [b]) = false) :
    listFeed cap F b = ([], emitted f (F ++ [b])) := by
  have h8 : 8 ≤ F.length + 1 := by simpa using he.1
  have hne : F ≠ [] := List.length_pos_iff.1 (by omega)
  rw [listFeed_of_family (hstart.of_append hne).familyOf_head, if_neg (by omega), if_neg (by omega), if_pos he, hh,
    if_neg Bool.false_ne_true]

/-- A byte that finds the buffer full is the overflow. -/
theorem listFeed_overflows {cap : Nat} {F : Bytes} {f : Family} (hstart : StartsLike f F) (h4 : 4 ≤ F.length)
    (hcap : F.length = cap) (b : Byte) : listFeed cap F b = ([], overflowed) := by
  rw [listFeed_of_family hstart.familyOf_head, if_neg (by omega), if_pos hcap]

/-- One byte more. -/
theorem listRun_snoc {cap : Nat} {F bs G : Bytes} {rs : List FeedResult} (h : listRun cap F bs = (G, rs)) (b : Byte) :
    listRun cap F (bs ++ [b]) = ((listFeed cap G b).1, rs ++ recordResult (listFeed cap G b).2 []) := by
  rw [listRun_append, h]; rfl

/-- The bytes of a frame in progress that fits are kept, silently. -/
theorem listRun_of_held {cap : Nat} {f : Family} {F : Bytes} (hstart : F ≠ [] → StartsLike f F)
    (hheld : FootersHeld f F) (hcap : F.length ≤ cap) : listRun cap [] F = (F, []) := by
  induction F using List.reverseRecOn with
  | nil => rfl
  | append_singleton F b ih =>
    have hstart' : StartsLike f (F ++ [b]) := hstart (by simp)
    rw [List.length_append, List.length_singleton] at hcap
    have hkeeps : listFeed cap F b = (F ++ [b], silent) := by
      refine listFeed_keeps hstart' (by omega) fun he => ?_
      have hlast := hheld (F ++ [b]).length (Nat.le_refl _)
      rw [List.take_length] at hlast
      exact hlast he
    rw [listRun_snoc (ih hstart'.of_append hheld.of_append (by omega)), hkeeps]; rfl

/-- The beginnings of a frame that end before its first un-held footer are kept, silently. -/
theorem listRun_take {cap : Nat} {f : Family} {W : Bytes} (hhdr : W.take 4 = f.hdr) {n : Nat}
    (h : ∀ k, k ≤ n → ¬ UnheldFooterAt f W k) (hcap : (W.take n).length ≤ cap) :
    listRun cap [] (W.take n) = (W.take n, []) := by
  refine listRun_of_held (fun hne => startsLike_take hhdr ?_) (footersHeld_take h) hcap
  rcases Nat.eq_zero_or_pos n with rfl | h1
  · exact absurd List.take_zero hne
  · exact h1

/-- The first un-held footer emits what has arrived with it (R106). -/
theorem listRun_first_unheld {cap : Nat} {f : Family} {W : Bytes} (hhdr : W.take 4 = f.hdr) {k : Nat}
    (hk : UnheldFooterAt f W k) (hfirst : ∀ j, j < k → ¬ UnheldFooterAt f W j) (hcap : k ≤ cap) :
    listRun cap [] (W.take k) = ([], [emitted f (W.take k)]) := by
  obtain ⟨hkW, he, hh⟩ := hk
  have h8 : 8 ≤ k := Nat.le_trans he.1 (List.length_take_le ..)
  obtain ⟨n, rfl⟩ : ∃ n, k = n + 1 := ⟨k - 1, by omega⟩
  have hstart := startsLike_take hhdr (k := n + 1) (by omega)
  have hn : (W.take n).length = n := List.length_take_of_le (by omega)
  rw [List.take_succ_eq_append_getElem (by omega)] at he hh hstart ⊢
  have hbefore := listRun_take (cap := cap) hhdr (n := n) (fun j hj => hfirst j (by omega)) (by omega)
  rw [listRun_snoc hbefore, listFeed_emits hstart (by omega) he hh]; rfl

/-! ## Runs from `pos = 0` -/

/-- From `pos = 0` a run is that of the list with nothing in progress. -/
theorem run_of_pos_zero {s : State} (h0 : s.pos = 0) (bs : Bytes) :
    ∃ t, run bs s = .next (t, (listRun s.cfg.cap [] bs).2) ∧ Readable t (listRun s.cfg.cap [] bs).1 :=
  run_refines bs ⟨by omega, inProgress_zero h0, .inl h0⟩

/-- The same, where the run over the list is known. -/
theorem run_eq_of_listRun {s : State} (h0 : s.pos = 0) {bs G : Bytes} {rs : List FeedResult}
    (h : listRun s.cfg.cap [] bs = (G, rs)) :
    ∃ t, run bs s = .next (t, rs) ∧ t.pos = G.length ∧ inProgress t = .next G := by
  obtain ⟨t, ht, hread⟩ := run_of_pos_zero h0 bs
  rw [h] at ht hread
  exact ⟨t, ht, (inProgress_length hread.bytes).symm, hread.bytes⟩

/-- The first un-held footer emits, and the assembler hunts again (R106). -/
theorem run_first_unheld {s : State} {f : Family} {W : Bytes} (h0 : s.pos = 0) (hhdr : W.take 4 = f.hdr) {k : Nat}
    (hk : UnheldFooterAt f W k) (hfirst : ∀ j, j < k → ¬ UnheldFooterAt f W j) (hcap : k ≤ s.cfg.cap) :
    ∃ t, run (W.take k) s = .next (t, [emitted f (W.take k)]) ∧ t.pos = 0 := by
  obtain ⟨t, ht, hpos, -⟩ := run_eq_of_listRun h0 (listRun_first_unheld hhdr hk hfirst hcap)
  exact ⟨t, ht, hpos⟩

/-- Past the first un-held footer the emission stays the first result. -/
theorem run_first_result {s : State} {f : Family} {W : Bytes} {k : Nat} (h0 : s.pos = 0) (hhdr : W.take 4 = f.hdr)
    (hcap : W.length ≤ s.cfg.cap) (hk : UnheldFooterAt f W k) :
    ∃ j t rs, j ≤ k ∧ run W s = .next (t, emitted f (W.take j) :: rs) := by
  classical
  have hex : ∃ j, UnheldFooterAt f W j := ⟨k, hk⟩
  have hj := Nat.find_spec hex
  have hfirst := listRun_first_unheld hhdr hj (fun _ hi => Nat.find_min hex hi) (Nat.le_trans hj.1 hcap)
  obtain ⟨t, hrun, -⟩ := run_of_pos_zero h0 W
  have happend := listRun_append s.cfg.cap [] (W.take (Nat.find hex)) (W.drop (Nat.find hex))
  rw [List.take_append_drop, hfirst] at happend
  rw [happend] at hrun
  exact ⟨_, t, _, Nat.find_min' hex hk, hrun⟩

/-- A frame whose one un-held footer is its last is emitted whole, once. -/
theorem run_whole_frame {s : State} {f : Family} {W : Bytes} (h0 : s.pos = 0) (hhdr : W.take 4 = f.hdr)
    (hcap : W.length ≤ s.cfg.cap) (h : ∀ k, UnheldFooterAt f W k ↔ k = W.length) :
    ∃ t, run W s = .next (t, [emitted f W]) ∧ t.pos = 0 := by
  have hrun := run_first_unheld h0 hhdr ((h _).2 rfl) (fun j hj hu => Nat.ne_of_lt hj ((h j).1 hu)) hcap
  rwa [List.take_length] at hrun

/-- Settles O30: the first un-held footer is the first byte that is not kept; without one every byte is. -/
theorem wellFormedFrameIsAccepted : Obligations.WellFormedFrameIsAccepted := by
  rintro s f W h0 ⟨-, hhdr, -⟩ hcap
  refine ⟨fun k hk hfirst => run_first_unheld h0 hhdr hk hfirst (Nat.le_trans hk.1 hcap), fun hnone => ?_⟩
  have hlist := listRun_take (cap := s.cfg.cap) hhdr (n := W.length) (fun k _ => hnone k) (by simpa using hcap)
  rw [List.take_length] at hlist
  exact run_eq_of_listRun h0 hlist

theorem frameOf_take_four (f : Family) (body : Bytes) : (frameOf f body).take 4 = f.hdr := by
  cases f <;> rfl

/-- Settles O31: the reception is the run of the whole frame. -/
theorem wholeFrameIsEmittedOnce : Obligations.WholeFrameIsEmittedOnce := by
  intro s f body h0 hcap h
  obtain ⟨t, hrun, hpos⟩ := run_whole_frame h0 (frameOf_take_four f body) hcap h
  exact ⟨_, exec_receiveRow_of_run hrun, hpos, rfl⟩

/-- Settles O32: the noise leaves the state as it is. -/
theorem noiseBeforeAFrameIsHarmless : Obligations.NoiseBeforeAFrameIsHarmless := by
  rintro s f noise W h0 hnoise ⟨-, hhdr, -⟩ hcap h
  obtain ⟨t, hrun, hpos⟩ := run_whole_frame h0 hhdr hcap h
  exact ⟨t, run_append_eq_next (run_huntDiscard h0 hnoise) hrun, hpos⟩

/-- Settles O33: the first byte of the new header is a mismatch, and the other three start nothing. -/
theorem falseStartLosesTheNextHeader : Obligations.FalseStartLosesTheNextHeader := by
  intro s f g h1 h3 hf
  obtain ⟨b, rest, hhdr, hb, hrest⟩ : ∃ b rest, g.hdr = b :: rest ∧ (b = 0xF4 ∨ b = 0xFD) ∧
      ∀ c ∈ rest, c ≠ 0xF4 ∧ c ≠ 0xFD := by
    cases g
    · exact ⟨_, _, rfl, .inl rfl, by decide⟩
    · exact ⟨_, _, rfl, .inr rfl, by decide⟩
  have hne : f.hdr[s.pos]? ≠ some b := fun heq => (not_or.2 (hdr_inner_ne h1 heq)) hb
  have hfeed := feedByte_of_frameSyncError (feedCase_headerMismatch h1 h3 hf hne) rfl
  rw [hhdr]
  exact ⟨abandon s, run_cons_eq_next.2 ⟨_, _, _, hfeed, run_huntDiscard rfl hrest, rfl⟩, rfl⟩

/-- Settles O34: the first `CAP` bytes are kept, and the next one finds the buffer full. -/
theorem overlongFrameOverflows : Obligations.OverlongFrameOverflows := by
  intro s f W h0 hhdr hlong hnone
  have hcap := s.cfg.capOk
  have hlen : (W.take s.cfg.cap).length = s.cfg.cap := List.length_take_of_le (by omega)
  have hkept := listRun_take (cap := s.cfg.cap) hhdr hnone (by omega)
  have hstart := startsLike_take hhdr (k := s.cfg.cap) (by omega)
  have hlist : listRun s.cfg.cap [] (W.take (s.cfg.cap + 1)) = ([], [overflowed]) := by
    rw [List.take_succ_eq_append_getElem hlong, listRun_snoc hkept, listFeed_overflows hstart (by omega) hlen]; rfl
  obtain ⟨t, hrun, hpos, -⟩ := run_eq_of_listRun h0 hlist
  exact ⟨t, hrun, hpos⟩

/-! ## The MAC acknowledgment (R168) -/

/-- The acknowledgment of a MAC request with the MAC bytes `m`. -/
def macAck (m : Bytes) : Bytes := frameOf .ack ([0x0A, 0x00, 0xA5, 0x01, 0x00, 0x00] ++ m)

theorem macAck_length {m : Bytes} (hm : m.length = 6) : (macAck m).length = 20 := by simp [macAck, frameOf, hm]

/-- Its bytes before the MAC are those of a success. -/
theorem macAck_lead (m : Bytes) {i : Nat} (hi : i < 10) :
    (macAck m)[i]? = ([0xFD, 0xFC, 0xFB, 0xFA, 0x0A, 0x00, 0xA5, 0x01, 0x00, 0x00] : Bytes)[i]? := by
  have happend : macAck m =
      [0xFD, 0xFC, 0xFB, 0xFA, 0x0A, 0x00, 0xA5, 0x01, 0x00, 0x00] ++ (m ++ Family.ack.ftr) := by
    simp [macAck, frameOf, Family.hdr]
  rw [happend, List.getElem?_append_left hi]

/-- Its first 10 to 19 bytes are held. -/
theorem hold_macAck_take {m : Bytes} {k : Nat} (hm : m.length = 6) (h10 : 10 ≤ k) (h20 : k < 20) :
    hold .ack ((macAck m).take k) = true := by
  have hlen : ((macAck m).take k).length = k := List.length_take_of_le (by rw [macAck_length hm]; omega)
  have hbyte : ∀ i, i < 10 → ((macAck m).take k)[i]? = _ := fun i hi =>
    (List.getElem?_take_of_lt (by omega)).trans (macAck_lead m hi)
  exact (holdIsTheStatedPredicate .ack _).2 ⟨rfl, by omega, by omega, hbyte 7 (by decide), hbyte 8 (by decide),
    hbyte 9 (by decide), hbyte 6 (by decide)⟩

/-- Whatever the six MAC bytes, a footer before the last is held: it does not begin in the length field, so it ends at 10
bytes or more. -/
theorem unheldFooterAt_macAck {m : Bytes} (hm : m.length = 6) (k : Nat) :
    UnheldFooterAt .ack (macAck m) k ↔ k = (macAck m).length := by
  have hlen := macAck_length hm
  constructor
  · rintro ⟨hk, he, hh⟩
    by_contra hne
    obtain ⟨h8, hfirst, -⟩ := (endsInFooter_take hk).1 he
    have h10 : 10 ≤ k := by
      by_contra hlt
      rw [macAck_lead m (by omega)] at hfirst
      obtain rfl | rfl : k = 8 ∨ k = 9 := by omega
      all_goals revert hfirst; decide
    rw [hold_macAck_take hm h10 (by omega)] at hh
    cases hh
  · rintro rfl
    rw [UnheldFooterAt, List.take_length, Bool.eq_false_iff]
    refine ⟨Nat.le_refl _, endsInFooter_frameOf .ack _, fun hh => ?_⟩
    obtain ⟨-, -, h20, -⟩ := (holdIsTheStatedPredicate .ack _).1 hh
    omega

/-- Settles O35: the last footer is the one that is not held. -/
theorem macAcknowledgmentIsEmittedWhole : Obligations.MacAcknowledgmentIsEmittedWhole := by
  intro s m h0 hcap hm
  exact wholeFrameIsEmittedOnce s .ack _ h0 ((macAck_length hm).trans_le hcap) (unheldFooterAt_macAck hm)

end Sys2Proof.Machine
end

section
/-! The encoder: what it refuses (R121, R131), the bytes it returns (R124 to R138, R74), that a frame it returns names the
operation it came from (R75), and that the assembler takes such a frame back (R123). -/

namespace Sys2Proof.Machine

/-! ## Refusals (R121) -/

theorem encodeRequest_opcodeHighByte {op : BitVec 16} (ho : 0x00FF < op.toNat) (p : Bytes) :
    encodeRequest op p = .refused .opcodeHighByte := if_pos ho

theorem encodeRequest_payloadTooLong {op : BitVec 16} {p : Bytes} (ho : op.toNat ≤ 0x00FF) (hp : 65533 < p.length) :
    encodeRequest op p = .refused .payloadTooLong := by
  rw [encodeRequest, if_neg (Nat.not_lt.2 ho), if_pos hp]

/-- Settles O37: the opcode is looked at first, so it alone decides where both faults are there. -/
theorem encodeRefusesWhatHasNoFrame : Obligations.EncodeRefusesWhatHasNoFrame := by
  intro s op p
  simp only [exec_encode, encodeStep_eq]
  refine ⟨fun ho _ => ?_, fun ho hp => ?_, fun ho _ => ⟨.opcodeHighByte, .inl rfl, ?_⟩, fun ho hp => ⟨buildFrame op p, ?_⟩⟩
  · rw [encodeRequest_opcodeHighByte ho]
  · rw [encodeRequest_payloadTooLong ho hp]
  · rw [encodeRequest_opcodeHighByte ho]
  · rw [encodeRequest_ok ho hp]

/-! ## The commands with a payload of their own (R124, R125, R127, R131, R133, R135, R138) -/

/-- The frame of a `SET_BASIC`, written out (R131). -/
theorem buildFrame_basic (mn mx lvl : Byte) (t : BitVec 16) :
    buildFrame 0x02 ([mn, mx + 1] ++ le16 t.toNat ++ [lvl]) =
      [0xFD, 0xFC, 0xFB, 0xFA, 0x07, 0x00, 0x02, 0x00, mn, mx + 1, BitVec.ofNat 8 t.toNat, BitVec.ofNat 8 (t.toNat / 256),
        lvl, 0x04, 0x03, 0x02, 0x01] := by
  simp [buildFrame, le16, Family.hdr, Family.ftr]

/-- It is sent for every `mx` up to 254. -/
theorem exec_setBasic_ok {mx : Byte} (h : mx.toNat ≤ 254) (mn lvl : Byte) (t : BitVec 16) (s : State) :
    exec (.setBasic mn mx t lvl) s =
      .next { s with result := .encoded (.ok (buildFrame 0x02 ([mn, mx + 1] ++ le16 t.toNat ++ [lvl]))) } := by
  rw [exec_setBasic_of_le h, encodeStep_ok (by decide) (by simp [le16])]

/-- Settles O40: up to 254 the payload is the stated one, and 255 is refused. -/
theorem setBasicReturnsItsBytes : Obligations.SetBasicReturnsItsBytes := by
  intro s mn mx lvl t
  refine ⟨fun hmx => ?_, fun hmx => ⟨.maxGateNotByte, exec_setBasic_of_gt (by omega) mn lvl t s⟩⟩
  have hlo : BitVec.ofNat 8 (t.toNat % 256) = BitVec.ofNat 8 t.toNat := BitVec.eq_of_toNat_eq (Nat.mod_mod ..)
  have hmx1 : BitVec.ofNat 8 (mx.toNat + 1) = mx + 1 := by
    apply BitVec.eq_of_toNat_eq
    simp [BitVec.toNat_add]
  rw [exec_setBasic_ok hmx, buildFrame_basic, hlo, hmx1]

/-- Settles O41: a gate array is a payload of 14 bytes. -/
theorem gateArraysAreSentAsGiven : Obligations.GateArraysAreSentAsGiven := by
  intro s g
  have hfits : g.bytes.length ≤ 65533 := by rw [g.len]; decide
  rw [exec_setMoveSens, exec_setStillSens, encodeStep_ok (by decide) hfits, encodeStep_ok (by decide) hfits,
    buildFrame, buildFrame, g.len]
  exact ⟨rfl, rfl⟩

/-- Settles O45: the row's word is the command word of the opcode, with the payload the request is made with. -/
theorem encoderReturnsTheRowsWord : Obligations.EncoderReturnsTheRowsWord := by
  intro i s hi hwf
  cases i with
  | telemetry | ack | feed | reset => cases hi
  | setBasic mn mx t lvl =>
    obtain ⟨hlo, hhi⟩ := extract_eq_ofNat t
    rw [exec_setBasic_ok (of_decide_eq_true hwf), buildFrame_basic, encode, hlo, hhi]; rfl
  | setMoveSens g => exact (gateArraysAreSentAsGiven s g).1
  | setStillSens g => exact (gateArraysAreSentAsGiven s g).2
  | encode op p =>
    simp only [Instr.wellFormed, payloadFits, Bool.and_eq_true, decide_eq_true_iff] at hwf
    exact encodeStep_ok hwf.1 hwf.2 s
  | cfgEnable | cfgDisable | queryMac | btSetOn | btSetOff => exact encodeStep_ok (by decide) (by decide) s
  | _ p => exact encodeStep_ok (by decide) (of_decide_eq_true hwf) s

/-! ## A command frame runs as the `ENCODE` it names (R75) -/

/-- The payload of a `SET_BASIC` is the one `ENCODE` is given, its timeout low byte first. -/
theorem payload_setBasic (mn mx lvl : Byte) (t : BitVec 16) :
    ([mn, mx + 1] ++ le16 t.toNat ++ [lvl] : Bytes) = [mn, mx + 1, t.extractLsb' 0 8, t.extractLsb' 8 8, lvl] := by
  obtain ⟨hlo, hhi⟩ := extract_eq_ofNat t
  rw [hlo, hhi]; rfl

/-- The second payload byte of a `SET_BASIC` is 0 only for `mx = 255`. -/
theorem toNat_le_of_succ_ne_zero {mx : Byte} (h : mx + 1 ≠ 0x00) : mx.toNat ≤ 254 := by
  by_contra hgt
  have hmx : mx = 0xFF := BitVec.eq_of_toNat_eq (by have := mx.isLt; simp; omega)
  exact h (hmx ▸ rfl)

/-- A fixed row runs as `ENCODE`, but for the `SET_BASIC` whose `mx` is 255. -/
theorem exec_fixedRow {op : Byte} {p : Bytes} {i : Instr} (hi : fixedRow op p = some i)
    (hbasic : ¬ (op = 0x02 ∧ p.length = 5 ∧ p[1]? = some 0x00)) (s : State) :
    exec i s = encodeStep (op.setWidth 16) p s := by
  rcases fixedRow_cases hi with ⟨rfl, rfl, rfl⟩ | ⟨rfl, rfl, rfl⟩ | ⟨rfl, rfl, rfl⟩ | ⟨rfl, rfl, rfl⟩ | ⟨rfl, rfl, rfl⟩ |
    ⟨rfl, hset⟩ | ⟨rfl, g, rfl, rfl⟩ | ⟨rfl, g, rfl, rfl⟩
  case inr.inr.inr.inr.inr.inl =>
    obtain ⟨mn, mx, t, lvl, rfl, rfl⟩ := setBasicOf_some hset
    have hmx : mx + 1 ≠ 0x00 := fun h0 => hbasic ⟨rfl, rfl, congrArg some h0⟩
    rw [exec_setBasic_of_le (toNat_le_of_succ_ne_zero hmx), payload_setBasic]; rfl
  all_goals rfl

/-- A variable row runs as `ENCODE`. -/
theorem exec_varRow (op : Byte) (p : Bytes) (s : State) : exec (varRow op p) s = encodeStep (op.setWidth 16) p s := by
  rcases varRow_cases op p with ⟨rfl, h⟩ | ⟨rfl, h⟩ | ⟨rfl, h⟩ | ⟨rfl, h⟩ | ⟨rfl, h⟩ | ⟨rfl, h⟩ | ⟨rfl, h⟩ | ⟨rfl, h⟩ |
    ⟨rfl, h⟩ | ⟨rfl, h⟩ | ⟨rfl, h⟩ | ⟨rfl, h⟩ | h
  all_goals rw [h]; rfl

/-- Settles O47: the fixed row that selects the frame runs as `ENCODE`, and so does the variable row where none does. -/
theorem namedCommandIsEncode : Obligations.NamedCommandIsEncode := by
  refine ⟨fun s op p hbasic => ?_, fun s p hlen h0 => ?_⟩
  · rw [exec_encode, named]
    cases hi : fixedRow op p with
    | some i => exact exec_fixedRow hi hbasic s
    | none => exact exec_varRow op p s
  · match p, hlen, h0 with
    | [mn, mx1, tLo, tHi, lvl], _, h0 =>
      obtain rfl : mx1 = 0x00 := by simpa using h0
      exact ⟨_, exec_setBasic_of_gt (by decide) _ _ _ s⟩

/-! ## An encoded frame and the assembler (R123) -/

/-- The eight bytes of a command word before a payload of `n` bytes. -/
def leadOf (op : Byte) (n : Nat) : Bytes := [0xFD, 0xFC, 0xFB, 0xFA] ++ le16 (2 + n) ++ [op, 0x00]

@[simp] theorem leadOf_length (op : Byte) (n : Nat) : (leadOf op n).length = 8 := rfl

theorem buildFrame_eq_lead (op : BitVec 16) (p : Bytes) :
    buildFrame op p = leadOf (op.setWidth 8) p.length ++ (p ++ Family.ack.ftr) := by
  simp [buildFrame, leadOf, Family.hdr]

/-- A byte of the lead. -/
theorem buildFrame_lead (op : BitVec 16) (p : Bytes) {i : Nat} (hi : i < 8) :
    (buildFrame op p)[i]? = (leadOf (op.setWidth 8) p.length)[i]? := by
  rw [buildFrame_eq_lead, List.getElem?_append_left hi]

/-- The byte at the status offset is the high byte of the opcode. -/
theorem buildFrame_seven (op : BitVec 16) (p : Bytes) : (buildFrame op p)[7]? = some 0x00 :=
  buildFrame_lead op p (by decide)

/-- So none of its beginnings is held. -/
theorem hold_buildFrame_take (op : BitVec 16) (p : Bytes) (k : Nat) : hold .ack ((buildFrame op p).take k) = false := by
  rw [Bool.eq_false_iff]
  intro hh
  obtain ⟨-, h10, -, hstatus, -⟩ := (holdIsTheStatedPredicate .ack _).1 hh
  rw [List.getElem?_take_of_lt (by simp at h10; omega), buildFrame_seven] at hstatus
  cases hstatus

theorem wellFormedFrame_buildFrame (op : BitVec 16) (p : Bytes) : WellFormedFrame .ack (buildFrame op p) := by
  have he : EndsInFooter .ack (buildFrame op p) := endsInFooter_append (by simp)
  exact ⟨he.1, rfl, he.2⟩

/-- With the byte `00` at offset 7 a footer ends at 12 bytes or more: an earlier window has that byte in it. -/
theorem twelve_le_of_footer {W : Bytes} (h7 : W[7]? = some 0x00) {k : Nat} (hk : k ≤ W.length)
    (he : EndsInFooter .ack (W.take k)) : 12 ≤ k := by
  obtain ⟨h8, ha, hb, hc, hd⟩ := (endsInFooter_take hk).1 he
  by_contra hlt
  obtain rfl | rfl | rfl | rfl : k = 8 ∨ k = 9 ∨ k = 10 ∨ k = 11 := by omega
  · cases hd.symm.trans h7
  · cases hc.symm.trans h7
  · cases hb.symm.trans h7
  · cases ha.symm.trans h7

/-- Settles O48: lead, payload and footer of the frame; the byte at offset 7 is `00`. -/
theorem encodedFrameProperties : Obligations.EncodedFrameProperties := by
  intro op p E hE
  obtain ⟨ho, -, rfl⟩ := encodeRequest_eq_ok.1 hE
  have hlen := buildFrame_length op p
  refine ⟨hlen, wellFormedFrame_buildFrame op p, hold_buildFrame_take op p, buildFrame_lead op p (by decide), ho, ?_,
    fun k h8 h11 hfooter => ?_⟩
  · have hcut : (buildFrame op p).length - 4 = (leadOf (op.setWidth 8) p.length ++ p).length := by simp; omega
    rw [hcut, buildFrame_eq_lead, ← List.append_assoc, List.take_left]
    exact List.drop_left' (leadOf_length (op.setWidth 8) p.length)
  · have hk : k ≤ (buildFrame op p).length := by omega
    have htake : ((buildFrame op p).take k).length = k := List.length_take_of_le hk
    have h12 := twelve_le_of_footer (buildFrame_seven op p) hk ⟨by omega, by rw [htake]; exact hfooter⟩
    omega

/-- The first bytes of an encoded frame, up to some of its payload. -/
theorem buildFrame_take (op : BitVec 16) {p : Bytes} {n : Nat} (hn : n ≤ p.length) :
    (buildFrame op p).take (8 + n) = leadOf (op.setWidth 8) p.length ++ p.take n := by
  have htake := List.take_length_add_append (l₁ := leadOf (op.setWidth 8) p.length) (l₂ := p ++ Family.ack.ftr) n
  rwa [leadOf_length, List.take_append_of_le_length hn, ← buildFrame_eq_lead] at htake

/-- A footer that ends in the last three bytes ends the frame: the footer does not overlap itself. -/
theorem eq_length_of_footer_beyond_payload {op : BitVec 16} {p : Bytes} {k : Nat} (hk : k ≤ (buildFrame op p).length)
    (hgt : 8 + p.length < k) (he : EndsInFooter .ack ((buildFrame op p).take k)) : k = (buildFrame op p).length := by
  have hlen := buildFrame_length op p
  obtain ⟨-, -, -, -, hlast⟩ := (endsInFooter_take hk).1 he
  rw [buildFrame_eq_lead, List.getElem?_append_right (by simp; omega), List.getElem?_append_right (by simp; omega),
    leadOf_length] at hlast
  obtain h | h | h | h : k - 1 - 8 - p.length = 0 ∨ k - 1 - 8 - p.length = 1 ∨ k - 1 - 8 - p.length = 2 ∨
    k - 1 - 8 - p.length = 3 := by omega
  case inr.inr.inr => omega
  all_goals rw [h] at hlast; cases hlast

/-- A footer of an encoded frame before its last is one in the payload. -/
theorem footer_before_last_iff (op : BitVec 16) (p : Bytes) :
    (∃ k, k < (buildFrame op p).length ∧ EndsInFooter .ack ((buildFrame op p).take k)) ↔ Family.ack.ftr <:+: p := by
  have hlen := buildFrame_length op p
  constructor
  · rintro ⟨k, hlt, he⟩
    have h12 := twelve_le_of_footer (buildFrame_seven op p) (Nat.le_of_lt hlt) he
    have hin : k ≤ 8 + p.length := by
      by_contra hgt
      have := eq_length_of_footer_beyond_payload (Nat.le_of_lt hlt) (by omega) he
      omega
    obtain ⟨n, rfl⟩ : ∃ n, k = 8 + n := ⟨k - 8, by omega⟩
    have hsuffix : Family.ack.ftr <:+ (buildFrame op p).take (8 + n) := he.2 ▸ List.drop_suffix ..
    rw [buildFrame_take op (by omega)] at hsuffix
    have hends : Family.ack.ftr <:+ p.take n :=
      List.suffix_of_suffix_length_le hsuffix (List.suffix_append ..) (by simp; omega)
    exact hends.isInfix.trans (List.take_prefix ..).isInfix
  · rintro ⟨as, bs, rfl⟩
    have htake := buildFrame_take op (p := as ++ Family.ack.ftr ++ bs) (n := (as ++ Family.ack.ftr).length) (by simp)
    rw [List.take_left, ← List.append_assoc] at htake
    exact ⟨_, by simp at hlen ⊢; omega, htake ▸ endsInFooter_append (by simp; omega)⟩

theorem emitted_frame_inj {f g : Family} {F G : Bytes} (h : emitted f F = emitted g G) : F = G := by
  cases h; rfl

/-- Settles O49: the frame is never held, so it comes back whole exactly if no footer stands before its last. -/
theorem loopbackEmitsUnlessPayloadHoldsAFooter : Obligations.LoopbackEmitsUnlessPayloadHoldsAFooter := by
  intro s op p E h0 hE hcap
  obtain ⟨-, -, rfl⟩ := encodeRequest_eq_ok.1 hE
  obtain ⟨h8, hhdr, hfooter⟩ := wellFormedFrame_buildFrame op p
  have hunheld : ∀ k, UnheldFooterAt .ack (buildFrame op p) k ↔
      k ≤ (buildFrame op p).length ∧ EndsInFooter .ack ((buildFrame op p).take k) := fun k =>
    ⟨fun ⟨hk, he, _⟩ => ⟨hk, he⟩, fun ⟨hk, he⟩ => ⟨hk, he, hold_buildFrame_take op p k⟩⟩
  have hlast : EndsInFooter .ack ((buildFrame op p).take (buildFrame op p).length) := by
    rw [List.take_length]; exact ⟨h8, hfooter⟩
  refine Iff.trans ?_ (not_congr (footer_before_last_iff op p))
  constructor
  · rintro ⟨t, hrun, -⟩ ⟨k, hlt, he⟩
    obtain ⟨j, u, rs, hjk, hrun'⟩ := run_first_result h0 hhdr hcap ((hunheld k).2 ⟨Nat.le_of_lt hlt, he⟩)
    obtain ⟨-, hresults⟩ := Prod.mk.inj (Host.Outcome.next.inj (hrun.symm.trans hrun'))
    have hshort := congrArg List.length (emitted_frame_inj (List.cons.inj hresults).1)
    rw [List.length_take] at hshort
    omega
  · intro hnone
    refine run_whole_frame h0 hhdr hcap fun k => ⟨fun hu => ?_, ?_⟩
    · obtain ⟨hk, he⟩ := (hunheld k).1 hu
      exact Nat.le_antisymm hk (Nat.le_of_not_lt fun hlt => hnone ⟨k, hlt, he⟩)
    · rintro rfl
      exact (hunheld _).2 ⟨Nat.le_refl _, hlast⟩

/-- Settles O39: each is its row's word, and the MAC request is an encoded frame. -/
theorem fixedCommandsReturnTheirBytes : Obligations.FixedCommandsReturnTheirBytes := fun s =>
  ⟨encoderReturnsTheRowsWord .cfgEnable s rfl rfl, encoderReturnsTheRowsWord .cfgDisable s rfl rfl,
    encoderReturnsTheRowsWord .queryMac s rfl rfl, encoderReturnsTheRowsWord .btSetOn s rfl rfl,
    encoderReturnsTheRowsWord .btSetOff s rfl rfl, hold_buildFrame_take 0xA5 [0x01, 0x00]⟩

end Sys2Proof.Machine
end

section
/-! The decoder context (R160 to R170): the verdict on an Ack frame, said once by its tests, what `hold` has to do with it, the
fields of a Telemetry record, the version string and the enumerations. -/

namespace Sys2Proof.Machine

/-! ## Ack frames (R165, R168) -/

/-- What decides the verdict on an Ack frame, verdict by verdict (R165). -/
def VerdictTests (F : Bytes) : AckVerdict → Prop
  | .shortFrame => F.length < 10
  | .failure .ackStatusError => 10 ≤ F.length ∧ F[7]? ≠ some 0x01
  | .failure .reservedBytesError =>
    10 ≤ F.length ∧ F[7]? = some 0x01 ∧ ¬ (F[8]? = some 0x00 ∧ F[9]? = some 0x00)
  | .failure _ => False
  | .incomplete =>
    10 ≤ F.length ∧ F[7]? = some 0x01 ∧ F[8]? = some 0x00 ∧ F[9]? = some 0x00 ∧ F[6]? = some 0xA5 ∧ F.length < 20
  | .success op =>
    10 ≤ F.length ∧ F[7]? = some 0x01 ∧ F[8]? = some 0x00 ∧ F[9]? = some 0x00 ∧ F[6]? = some op ∧
      ¬ (op = 0xA5 ∧ F.length < 20)

/-- The verdict that is given passes its tests. -/
theorem verdictTests_ackVerdict (F : Bytes) : VerdictTests F (ackVerdict F) := by
  unfold ackVerdict
  by_cases h10 : F.length < 10
  · rw [if_pos h10]; exact h10
  rw [if_neg h10]
  have hlen := Nat.le_of_not_lt h10
  by_cases h7 : F[7]? = some 0x01
  swap
  · rw [if_pos h7]; exact ⟨hlen, h7⟩
  rw [if_neg (not_not.2 h7)]
  by_cases h89 : F[8]? ≠ some 0x00 ∨ F[9]? ≠ some 0x00
  · rw [if_pos h89]; exact ⟨hlen, h7, fun ⟨h8, h9⟩ => h89.elim (· h8) (· h9)⟩
  rw [if_neg h89]
  obtain ⟨h8, h9⟩ := not_or.1 h89
  have h6 : F[6]? = some (F[6]?.getD 0x00) := by
    rw [List.getElem?_eq_getElem (by omega)]; rfl
  by_cases hmac : F[6]? = some 0xA5 ∧ F.length < 20
  · rw [if_pos hmac]; exact ⟨hlen, h7, not_not.1 h8, not_not.1 h9, hmac⟩
  · rw [if_neg hmac]
    exact ⟨hlen, h7, not_not.1 h8, not_not.1 h9, h6, fun ⟨hop, hl⟩ => hmac ⟨hop ▸ h6, hl⟩⟩

/-- The verdict whose tests are passed is given. -/
theorem ackVerdict_of_verdictTests {F : Bytes} {v : AckVerdict} (h : VerdictTests F v) : ackVerdict F = v := by
  unfold ackVerdict
  cases v with
  | shortFrame => exact if_pos h
  | failure c =>
    cases c with
    | ackStatusError =>
      obtain ⟨hlen, h7⟩ := h
      rw [if_neg (Nat.not_lt.2 hlen), if_pos h7]
    | reservedBytesError =>
      obtain ⟨hlen, h7, h89⟩ := h
      rw [if_neg (Nat.not_lt.2 hlen), if_neg (not_not.2 h7), if_pos (Decidable.not_and_iff_or_not.1 h89)]
    | _ => exact h.elim
  | incomplete =>
    obtain ⟨hlen, h7, h8, h9, hmac⟩ := h
    rw [if_neg (Nat.not_lt.2 hlen), if_neg (not_not.2 h7), if_neg (not_or.2 ⟨not_not.2 h8, not_not.2 h9⟩), if_pos hmac]
  | success op =>
    obtain ⟨hlen, h7, h8, h9, h6, hmac⟩ := h
    rw [if_neg (Nat.not_lt.2 hlen), if_neg (not_not.2 h7), if_neg (not_or.2 ⟨not_not.2 h8, not_not.2 h9⟩), h6,
      if_neg fun ⟨hop, hl⟩ => hmac ⟨Option.some.inj hop, hl⟩]
    rfl

theorem ackVerdict_eq_iff (F : Bytes) (v : AckVerdict) : ackVerdict F = v ↔ VerdictTests F v :=
  ⟨fun h => h ▸ verdictTests_ackVerdict F, ackVerdict_of_verdictTests⟩

/-- Settles O58: the clauses are the tests of the verdicts. -/
theorem ackVerdictFollowsTheStatedOrder : Obligations.AckVerdictFollowsTheStatedOrder := fun F =>
  ⟨ackVerdict_eq_iff F .shortFrame, ackVerdict_eq_iff F (.failure .ackStatusError),
    ackVerdict_eq_iff F (.failure .reservedBytesError), fun op => ackVerdict_eq_iff F (.success op)⟩

/-- Settles O57: `hold` has the tests of `Incomplete`, and only an un-held candidate is emitted. -/
theorem holdIsTheIncompleteVerdict : Obligations.HoldIsTheIncompleteVerdict := by
  have hiff : ∀ F : Bytes, hold .ack F = true ↔ ackVerdict F = .incomplete := by
    intro F
    rw [holdIsTheStatedPredicate .ack F, ackVerdict_eq_iff]
    exact ⟨fun ⟨_, hlen, h20, h7, h8, h9, h6⟩ => ⟨hlen, h7, h8, h9, h6, h20⟩,
      fun ⟨hlen, h7, h8, h9, h6, h20⟩ => ⟨rfl, hlen, h20, h7, h8, h9, h6⟩⟩
  refine ⟨hiff, fun s t b F log h hr hincomplete => ?_⟩
  obtain ⟨u, r, hfeed, rfl⟩ := execFeed_eq_next.1 h
  cases hr
  rcases feedByte_eq_next hfeed with ⟨-, hr, -⟩ | ⟨-, -, hr, -⟩ | ⟨-, -, hr, -⟩ | ⟨v, f, G, -, -, -, -, hh, -, hr, -⟩
  all_goals cases hr
  rw [(hiff F).2 hincomplete] at hh
  cases hh

/-! ## Telemetry frames (R161 to R164) -/

theorem telemetryVerdict_short {F : Bytes} (h : F.length < 12) : telemetryVerdict F = .shortFrame := if_pos h

/-- At 12 bytes the two markers decide. -/
theorem telemetryVerdict_long {F : Bytes} (h : 12 ≤ F.length) :
    telemetryVerdict F = if F[7]? = some 0xAA ∧ F[F.length - 6]? = some 0x55 then .record (telemetryFields F)
      else .discarded :=
  if_neg (Nat.not_lt.2 h)

/-- Only the fields of a frame of 12 bytes or more are recorded. -/
theorem telemetryVerdict_record {F : Bytes} {r : TelemetryRecord} (h : telemetryVerdict F = .record r) :
    12 ≤ F.length ∧ r = telemetryFields F := by
  rcases Nat.lt_or_ge F.length 12 with hlt | hge
  · rw [telemetryVerdict_short hlt] at h; cases h
  · rw [telemetryVerdict_long hge] at h
    split at h <;> cases h
    exact ⟨hge, rfl⟩

theorem telemetryMode_engineering (F : Bytes) : telemetryMode F = .engineering ↔ F[6]? = some 0x01 := by
  unfold telemetryMode; split <;> simp_all

/-- A gate array of Engineering mode: there where the frame reaches to its end, with the bytes at its offsets. -/
theorem gateArray {F : Bytes} (i : Nat) :
    (F.length < i + 14 → fieldBytes F i 14 = none) ∧
      (i + 14 ≤ F.length → ∃ g, fieldBytes F i 14 = some g ∧ g.length = 14 ∧ ∀ k, k < 14 → g[k]? = F[i + k]?) := by
  refine ⟨(fieldBytes_eq_none ..).2, fun h => ?_⟩
  have hg := (fieldBytes_eq_some F _ i 14).2 ⟨h, rfl⟩
  obtain ⟨hlen, hbytes⟩ := fieldBytes_getElem? hg
  exact ⟨_, hg, hlen, hbytes⟩

theorem telemetryVerdict_eq_shortFrame (F : Bytes) : telemetryVerdict F = .shortFrame ↔ F.length < 12 := by
  refine ⟨fun h => ?_, telemetryVerdict_short⟩
  by_contra hlen
  rw [telemetryVerdict_long (Nat.le_of_not_lt hlen)] at h
  split at h <;> cases h

theorem telemetryVerdict_eq_discarded (F : Bytes) : telemetryVerdict F = .discarded ↔
    12 ≤ F.length ∧ ¬ (F[7]? = some 0xAA ∧ F[F.length - 6]? = some 0x55) := by
  rcases Nat.lt_or_ge F.length 12 with hlt | hge
  · rw [telemetryVerdict_short hlt]
    exact iff_of_false nofun fun h => by omega
  · rw [telemetryVerdict_long hge]
    split
    · next hmarks => exact iff_of_false nofun fun h => h.2 hmarks
    · next hmarks => exact iff_of_true rfl ⟨hge, hmarks⟩

/-- Settles O59: length and markers give the verdict; a record is the fields of the frame, read at their offsets. -/
theorem telemetryVerdictFollowsTheStatedOrder : Obligations.TelemetryVerdictFollowsTheStatedOrder := by
  intro F
  refine ⟨telemetryVerdict_eq_shortFrame F, telemetryVerdict_eq_discarded F, fun r hr => ?_⟩
  obtain ⟨h12, rfl⟩ := telemetryVerdict_record hr
  refine ⟨telemetryMode_engineering F, ⟨F[8], List.getElem?_eq_getElem _, ?_, ?_⟩, fun hmode => ?_, fun hmode => ?_⟩
  · simp only [telemetryFields, List.getElem?_eq_getElem (show 8 < F.length by omega), Option.getD_some]
  · simp only [telemetryFields, List.getElem?_eq_getElem (show 8 < F.length by omega), Option.getD_some]
  · have hmode' : telemetryMode F = .normal := hmode
    simp only [telemetryFields, hmode', engineeringOnly_normal, and_self]
  · have hmode' : telemetryMode F = .engineering := hmode
    simp only [telemetryFields, hmode', engineeringOnly_engineering]
    obtain ⟨hmoveShort, hmove⟩ := gateArray (F := F) 17
    obtain ⟨hstillShort, hstill⟩ := gateArray (F := F) 31
    refine ⟨hmoveShort, hmove, hstillShort, hstill, trivial, fun raw hraw => ?_⟩
    exact ⟨lightPercent raw, by rw [hraw]; rfl, lightPercent_near raw, lightPercent_le raw⟩

/-! ## The version string, the MAC report, the enumerations (R168 to R170) -/

theorem resolutionOf_eq_some (b : Byte) (r : Resolution) : resolutionOf b = some r ↔ r.toByte = b := by
  refine ⟨fun h => ?_, fun h => h ▸ resolutionOf_toByte r⟩
  unfold resolutionOf at h
  split at h
  · next hb => cases h; exact hb.symm
  split at h
  · next hb => cases h; exact hb.symm
  split at h
  · next hb => cases h; exact hb.symm
  · cases h

/-- The bytes of the enumerants are those from 1 to 8. -/
theorem baud_toByte_iff (b : Byte) : (∃ r : BaudRate, r.toByte = b) ↔ 1 ≤ b.toNat ∧ b.toNat ≤ 8 := by
  constructor
  · rintro ⟨r, rfl⟩
    cases r <;> decide
  · rintro ⟨h1, h8⟩
    have hbyte : ∀ {r : BaudRate}, b.toNat = r.toByte.toNat → ∃ r : BaudRate, r.toByte = b := fun {r} hr =>
      ⟨r, BitVec.eq_of_toNat_eq hr.symm⟩
    obtain h | h | h | h | h | h | h | h : b.toNat = 1 ∨ b.toNat = 2 ∨ b.toNat = 3 ∨ b.toNat = 4 ∨ b.toNat = 5 ∨
      b.toNat = 6 ∨ b.toNat = 7 ∨ b.toNat = 8 := by omega
    exacts [hbyte (r := .baud1) h, hbyte (r := .baud2) h, hbyte (r := .baud3) h, hbyte (r := .baud4) h,
      hbyte (r := .baud5) h, hbyte (r := .baud6) h, hbyte (r := .baud7) h, hbyte (r := .baud8) h]

theorem baudOf_eq_none (b : Byte) : baudOf b = none ↔ ¬ (1 ≤ b.toNat ∧ b.toNat ≤ 8) := by
  rw [← baud_toByte_iff, Option.eq_none_iff_forall_ne_some, not_exists]
  exact forall_congr' fun r => not_congr (baudOf_eq_some b r)

/-- The MAC report of a success is the sentinel's, not enabled and without text, or an address's, with its text. -/
theorem macReport_reads {F : Bytes} (h : ackVerdict F = .success 0xA5) :
    ∃ m, macReport F = some m ∧
      (m.bluetoothEnabled = false ↔ (F.drop 10).take 6 = [0x08, 0x05, 0x04, 0x03, 0x02, 0x01]) ∧
      (m.bluetoothEnabled = true ↔ m.text = some (colonHex ((F.drop 10).take 6))) ∧
      (m.bluetoothEnabled = false ↔ m.text = none) := by
  refine ⟨_, macReport_of_success h, ?_⟩
  split
  · next hsentinel => exact ⟨iff_of_true rfl hsentinel, iff_of_false nofun nofun, iff_of_true rfl rfl⟩
  · next hsentinel => exact ⟨iff_of_false nofun hsentinel, iff_of_true rfl rfl, iff_of_false nofun nofun⟩

/-- Settles O60: each reading by its own lemma. -/
theorem versionAndResolutionReadAsStated : Obligations.VersionAndResolutionReadAsStated :=
  ⟨rfl, fun _ => macReport_reads, resolutionOf_eq_some, rfl, rfl, rfl, baudOf_eq_some, baudOf_eq_none, rfl, rfl,
    baudOfRate_first_end, baudOfRate_last_end, fun _ _ => baudOfRate_sound,
    fun _ r hr => hr ▸ baudOfRate_complete r⟩

end Sys2Proof.Machine
end

section
/-! Words and operations (R74): what a word reads as, and that decode and encode are inverse to each other. -/

namespace Sys2Proof

/-! ## What a word reads as -/

/-- The kinds of words, each with what it is decoded to (R74). -/
inductive ReadsAs : Bytes → Except DecodeError Instr → Prop
  | reset : ReadsAs [] (.ok .reset)
  | feed (b : Byte) : ReadsAs [b] (.ok (.feed b))
  | command {op : Byte} {p : Bytes} (hp : p.length ≤ 65533) : ReadsAs (commandWord op p) (.ok (named op p))
  | ack {body : Bytes} (h : commandOf body = none) : ReadsAs (Family.ack.hdr ++ body ++ Family.ack.ftr) (.ok (.ack body))
  | telemetry (body : Bytes) : ReadsAs (Family.telemetry.hdr ++ body ++ Family.telemetry.ftr) (.ok (.telemetry body))
  | refused {w : Bytes} (e : DecodeError) (h2 : 2 ≤ w.length) (h : ∀ f, stripFrame f w = none) : ReadsAs w (.error e)

theorem stripFrame_of_short {f : Family} {w : Bytes} (h : w.length < 8) : stripFrame f w = none :=
  if_neg fun ⟨h8, _⟩ => by omega

/-- Every word is of one of the kinds, and the decoder reads it so. -/
theorem readsAs_decode (w : Bytes) : ReadsAs w (decode w) := by
  match w with
  | [] => exact .reset
  | [b] => exact .feed b
  | a :: b :: c =>
    rcases Nat.lt_or_ge (a :: b :: c).length 8 with hlt | hge
    · have herr : decode (a :: b :: c) = .error .noRowOfThisLength := if_pos hlt
      rw [herr]
      exact .refused _ (by simp) fun f => stripFrame_of_short hlt
    generalize hw : a :: b :: c = w at hge ⊢
    cases hack : stripFrame .ack w with
    | some body =>
      rw [stripFrame_eq_some hack]
      cases hcmd : commandOf body with
      | some cmd =>
        obtain ⟨rfl, hp⟩ := commandOf_some hcmd
        rw [← commandWord_eq, decode_commandWord hp]
        exact .command hp
      | none =>
        rw [decode_ack, hcmd]
        exact .ack hcmd
    | none =>
      cases htel : stripFrame .telemetry w with
      | some body =>
        rw [stripFrame_eq_some htel, decode_tel]
        exact .telemetry body
      | none =>
        rw [decode_long hge, hack, htel]
        exact .refused _ (by omega) fun f => by cases f <;> assumption

/-! ## The words with operands of their own are command words -/

theorem encode_setBasic (mn mx lvl : Byte) (t : BitVec 16) : encode (.setBasic mn mx t lvl) =
    commandWord 0x02 [mn, mx + 1, t.extractLsb' 0 8, t.extractLsb' 8 8, lvl] := by
  simp [encode, commandWord, le16]

theorem encode_setMoveSens (g : Gates) : encode (.setMoveSens g) = commandWord 0x03 g.bytes := by
  rw [commandWord, g.len]; rfl

theorem encode_setStillSens (g : Gates) : encode (.setStillSens g) = commandWord 0x04 g.bytes := by
  rw [commandWord, g.len]; rfl

/-! ## Decode of encode -/

/-- Settles O5: a word of a command row is the command word of its opcode and payload, which name the operation; the
other words are a frame of a family, one byte, or none. -/
theorem decodeOfEncodeIsTheOperation : Obligations.DecodeOfEncodeIsTheOperation := by
  intro i hwf hown
  cases i with
  | reset | feed | cfgEnable | cfgDisable | queryMac | btSetOn | btSetOff => rfl
  | telemetry body => exact decode_tel body
  | ack body => exact (decode_ack body).trans (by rw [of_decide_eq_true hown])
  | setBasic mn mx t lvl =>
    have hname : named 0x02 [mn, mx + 1, t.extractLsb' 0 8, t.extractLsb' 8 8, lvl] = .setBasic mn mx t lvl :=
      congrArg (Option.getD · _) (setBasicOf_build mn mx lvl t)
    rw [encode_setBasic, decode_commandWord (by simp), hname]
  | setMoveSens g =>
    have hname : named 0x03 g.bytes = .setMoveSens g :=
      congrArg (fun x => (Option.map Instr.setMoveSens x).getD _) (gatesOf_bytes g)
    rw [encode_setMoveSens, decode_commandWord (by rw [g.len]; decide), hname]
  | setStillSens g =>
    have hname : named 0x04 g.bytes = .setStillSens g :=
      congrArg (fun x => (Option.map Instr.setStillSens x).getD _) (gatesOf_bytes g)
    rw [encode_setStillSens, decode_commandWord (by rw [g.len]; decide), hname]
  | encode op p =>
    simp only [Instr.wellFormed, payloadFits, Bool.and_eq_true, decide_eq_true_iff] at hwf
    exact (decode_commandWord hwf.2).trans (congrArg _ (of_decide_eq_true hown))
  | _ p => exact decode_commandWord (of_decide_eq_true hwf)

/-! ## Encode of decode -/

/-- What is asked of an operation that a word decodes to: it is the word's, it owns the word, and it is well-formed but for
the `mx` that R131 refuses (log 12). -/
def OperationOf (w : Bytes) (i : Instr) : Prop :=
  encode i = w ∧ i.ownsWord = true ∧ (i.wellFormed = true ∨ ∃ mn t lvl, i = .setBasic mn 255 t lvl)

theorem operationOf_fixedRow {op : Byte} {p : Bytes} {i : Instr} (h : fixedRow op p = some i) :
    OperationOf (commandWord op p) i := by
  rcases fixedRow_cases h with ⟨rfl, rfl, rfl⟩ | ⟨rfl, rfl, rfl⟩ | ⟨rfl, rfl, rfl⟩ | ⟨rfl, rfl, rfl⟩ | ⟨rfl, rfl, rfl⟩ |
    ⟨rfl, hset⟩ | ⟨rfl, g, rfl, rfl⟩ | ⟨rfl, g, rfl, rfl⟩
  case inr.inr.inr.inr.inr.inl =>
    obtain ⟨mn, mx, t, lvl, rfl, rfl⟩ := setBasicOf_some hset
    refine ⟨encode_setBasic mn mx lvl t, rfl, ?_⟩
    by_cases hmx : mx.toNat ≤ 254
    · exact .inl (decide_eq_true hmx)
    · obtain rfl : mx = 255 := BitVec.eq_of_toNat_eq (by have := mx.isLt; simp; omega)
      exact .inr ⟨mn, t, lvl, rfl⟩
  case inr.inr.inr.inr.inr.inr.inl => exact ⟨encode_setMoveSens g, rfl, .inl rfl⟩
  case inr.inr.inr.inr.inr.inr.inr => exact ⟨encode_setStillSens g, rfl, .inl rfl⟩
  all_goals exact ⟨rfl, rfl, .inl rfl⟩

/-- Where no fixed row selects the frame, the variable row's operation is the word's, `ENCODE` among them. -/
theorem operationOf_varRow {op : Byte} {p : Bytes} (hp : p.length ≤ 65533) (hfixed : fixedRow op p = none) :
    OperationOf (commandWord op p) (varRow op p) := by
  have hfits : payloadFits p = true := decide_eq_true hp
  rcases varRow_cases op p with ⟨rfl, h⟩ | ⟨rfl, h⟩ | ⟨rfl, h⟩ | ⟨rfl, h⟩ | ⟨rfl, h⟩ | ⟨rfl, h⟩ | ⟨rfl, h⟩ | ⟨rfl, h⟩ |
    ⟨rfl, h⟩ | ⟨rfl, h⟩ | ⟨rfl, h⟩ | ⟨rfl, h⟩ | h
  case inr.inr.inr.inr.inr.inr.inr.inr.inr.inr.inr.inr =>
    have hop : (op.setWidth 16).setWidth 8 = op := by simp
    have hname : named op p = .encode (op.setWidth 16) p := by rw [named, hfixed]; exact h
    have hle : (op.setWidth 16).toNat ≤ 0xFF := by
      have := op.isLt
      rw [BitVec.toNat_setWidth]; omega
    rw [h]
    refine ⟨congrArg (commandWord · p) hop, ?_, .inl ?_⟩
    · exact decide_eq_true (hop.symm ▸ hname)
    · simp only [Instr.wellFormed, hfits, hle, decide_true, Bool.and_self]
  all_goals rw [h]; exact ⟨rfl, rfl, .inl hfits⟩

/-- Settles O6: kind by kind, a command by its fixed row or, without one, by its variable row. -/
theorem decodedOperationEncodesBack : Obligations.DecodedOperationEncodesBack := by
  intro w i h
  have hreads := readsAs_decode w
  rw [h] at hreads
  show OperationOf w i
  cases hreads with
  | reset | feed => exact ⟨rfl, rfl, .inl rfl⟩
  | telemetry body => exact ⟨rfl, rfl, .inl rfl⟩
  | ack hbody => exact ⟨rfl, decide_eq_true hbody, .inl rfl⟩
  | @command op p hp =>
    unfold named
    cases hfixed : fixedRow op p with
    | some i => exact operationOf_fixedRow hfixed
    | none => exact operationOf_varRow hp hfixed

/-- Settles O4: each word is evaluated by the decoder. -/
theorem sampleWordsDecodeToTheirOperations : Obligations.SampleWordsDecodeToTheirOperations :=
  ⟨rfl, rfl, rfl, rfl, rfl, rfl, rfl⟩

end Sys2Proof
end

section
/-! The opcode table as data (R74): which words each row selects, and that the decoder takes the first row that does. -/

namespace Sys2Proof

open Machine

/-! ## Bytes under a mask -/

theorem and_FF (b : Byte) : b &&& 0xFF = b := BitVec.and_allOnes

/-- A mask over two parts is one over each. -/
theorem maskedEq_append {F m v : Bytes} (hF : F.length = v.length) (hm : m.length = v.length) (F' m' v' : Bytes) :
    maskedEq (F ++ F') (m ++ m') (v ++ v') = (maskedEq F m v && maskedEq F' m' v') := by
  induction v generalizing F m with
  | nil => rw [List.length_eq_zero_iff.1 hF, List.length_eq_zero_iff.1 hm]; cases F' <;> rfl
  | cons c v ih =>
    match F, m, hF, hm with
    | b :: F, k :: m, hF, hm =>
      simp only [List.cons_append, maskedEq, ih (Nat.succ.inj hF) (Nat.succ.inj hm), Bool.and_assoc]

/-- Under a mask of ones the bytes are those of the pattern. -/
theorem maskedEq_ones {F v : Bytes} {n : Nat} (hF : F.length = n) (hv : v.length = n) :
    maskedEq F (List.replicate n 0xFF) v = true ↔ F = v := by
  induction n generalizing F v with
  | zero => rw [List.length_eq_zero_iff.1 hF, List.length_eq_zero_iff.1 hv]; exact iff_of_true rfl rfl
  | succ n ih =>
    match F, v, hF, hv with
    | b :: F, c :: v, hF, hv =>
      simp only [List.replicate_succ, maskedEq, and_FF, Bool.and_eq_true, decide_eq_true_iff,
        ih (Nat.succ.inj hF) (Nat.succ.inj hv), List.cons.injEq]

/-- Under a mask of zeros they are any. -/
theorem maskedEq_zeros (F : Bytes) : maskedEq F (List.replicate F.length 0x00) (List.replicate F.length 0x00) = true := by
  induction F with
  | nil => rfl
  | cons b F ih => simpa [List.replicate_succ, maskedEq] using ih

/-- A word that is equal to a pattern under a mask has its length at least. -/
theorem length_le_of_maskedEq {F m v : Bytes} (hm : m.length = v.length) (h : maskedEq F m v = true) :
    v.length ≤ F.length := by
  induction v generalizing F m with
  | nil => exact Nat.zero_le _
  | cons c v ih =>
    match F, m, hm with
    | [], k :: m, _ => cases h
    | b :: F, k :: m, hm =>
      simp only [maskedEq, Bool.and_eq_true] at h
      exact Nat.succ_le_succ (ih (Nat.succ.inj hm) h.2)

/-! ## The command a word is -/

/-- The opcode and payload of a command word (R60, R74). -/
def commandIn (F : Bytes) : Option (Byte × Bytes) := (stripFrame .ack F).bind commandOf

theorem commandIn_commandWord {op : Byte} {p : Bytes} (hp : p.length ≤ 65533) :
    commandIn (commandWord op p) = some (op, p) := by
  rw [commandIn, commandWord_eq, stripFrame_frame]
  exact commandOf_build hp

theorem commandIn_eq_some {F : Bytes} {op : Byte} {p : Bytes} :
    commandIn F = some (op, p) ↔ p.length ≤ 65533 ∧ F = commandWord op p := by
  constructor
  · intro h
    obtain ⟨body, hstrip, hcmd⟩ := Option.bind_eq_some_iff.1 h
    obtain ⟨rfl, hp⟩ := commandOf_some hcmd
    exact ⟨hp, by rw [commandWord_eq, stripFrame_eq_some hstrip]⟩
  · rintro ⟨hp, rfl⟩
    exact commandIn_commandWord hp

/-! ## Which words a command row selects -/

/-- A fixed row whose frame varies in no byte selects that frame. -/
theorem cmdFixedRow_selects (name : String) {op : Byte} {p : Bytes} (hp : p.length ≤ 65533) (F : Bytes) :
    (cmdFixedRow name (commandWord op p)).selects F = true ↔ commandIn F = some (op, p) := by
  rw [commandIn_eq_some, and_iff_right hp]
  change (decide (F.length = (commandWord op p).length) && maskedEq F (List.replicate _ 0xFF) (commandWord op p)) = true ↔ _
  rw [Bool.and_eq_true, decide_eq_true_iff]
  exact ⟨fun ⟨hlen, h⟩ => (maskedEq_ones hlen rfl).1 h, fun h => ⟨congrArg _ h, (maskedEq_ones (congrArg _ h) rfl).2 h⟩⟩

/-- The mask of a fixed row whose `n` payload bytes vary. -/
theorem maskedEq_fields {A B C lead : Bytes} (hA : A.length = 8) (hlead : lead.length = 8) (hC : C.length = 4) :
    maskedEq (A ++ B ++ C) (List.replicate 8 0xFF ++ List.replicate B.length 0x00 ++ List.replicate 4 0xFF)
      (lead ++ List.replicate B.length 0x00 ++ [0x04, 0x03, 0x02, 0x01]) = true ↔
        A = lead ∧ C = [0x04, 0x03, 0x02, 0x01] := by
  rw [maskedEq_append (by simp only [List.length_append, List.length_replicate, hA, hlead])
      (by simp only [List.length_append, List.length_replicate, hlead]),
    maskedEq_append (hA.trans hlead.symm) (by rw [List.length_replicate, hlead]), maskedEq_zeros, Bool.and_true,
    Bool.and_eq_true, maskedEq_ones hA hlead, maskedEq_ones hC rfl]

/-- Such a row selects the command words of its opcode with a payload of `n` bytes. -/
theorem cmdFieldsRow_selects (name : String) (op : Byte) {n : Nat} (hn : n ≤ 65533) (F : Bytes) :
    (cmdFieldsRow name (leadOf op n) n).selects F = true ↔ ∃ p, commandIn F = some (op, p) ∧ p.length = n := by
  change (decide (F.length = (leadOf op n ++ List.replicate n 0x00 ++ [0x04, 0x03, 0x02, 0x01]).length) &&
    maskedEq F (List.replicate 8 0xFF ++ List.replicate n 0x00 ++ List.replicate 4 0xFF)
      (leadOf op n ++ List.replicate n 0x00 ++ [0x04, 0x03, 0x02, 0x01])) = true ↔ _
  simp only [commandIn_eq_some, Bool.and_eq_true, decide_eq_true_iff]
  constructor
  · rintro ⟨hlen, h⟩
    have hlen : F.length = 8 + (n + 4) := by simpa [leadOf_length] using hlen
    have hsplit : F = F.take 8 ++ (F.drop 8).take n ++ (F.drop 8).drop n := by simp
    have hB : ((F.drop 8).take n).length = n := by simp; omega
    rw [hsplit] at h ⊢
    generalize (F.drop 8).take n = B at *
    subst hB
    obtain ⟨hA, hC⟩ := (maskedEq_fields (by simp; omega) (leadOf_length ..) (by simp; omega)).1 h
    exact ⟨B, ⟨hn, by rw [hA, hC]; rfl⟩, rfl⟩
  · rintro ⟨p, ⟨-, rfl⟩, rfl⟩
    exact ⟨by simp [commandWord, leadOf], (maskedEq_fields rfl rfl rfl).2 ⟨rfl, rfl⟩⟩

/-- A variable row with opcode byte `v` under the mask `m`: `ENCODE` has the mask 0, every other row a mask of ones. -/
def variableRow (name : String) (v m : Byte) : Row :=
  { mnemonic := name, format := .cmdVar
    pattern := [0xFD, 0xFC, 0xFB, 0xFA, 0x00, 0x00, v, 0x00]
    mask := [0xFF, 0xFF, 0xFF, 0xFF, 0x00, 0x00, m, 0xFF]
    tail := [0x04, 0x03, 0x02, 0x01] }

/-- The words that have such a row's lead. -/
theorem maskedEq_variable {name : String} {v m : Byte} {F : Bytes} :
    maskedEq F (variableRow name v m).mask (variableRow name v m).pattern = true ↔
      ∃ lo hi op rest, op &&& m = v ∧ F = [0xFD, 0xFC, 0xFB, 0xFA, lo, hi, op, 0x00] ++ rest := by
  constructor
  · intro h
    have hlens : (variableRow name v m).mask.length = (variableRow name v m).pattern.length := rfl
    have h8 : 8 ≤ F.length := length_le_of_maskedEq hlens h
    match F, h8 with
    | a :: b :: c :: d :: lo :: hi :: op :: oh :: rest, _ =>
      simp only [variableRow, maskedEq, and_FF, Bool.and_eq_true, decide_eq_true_iff] at h
      obtain ⟨rfl, rfl, rfl, rfl, -, -, hop, rfl, -⟩ := h
      exact ⟨lo, hi, op, rest, hop, rfl⟩
  · rintro ⟨lo, hi, op, rest, rfl, rfl⟩
    simp [variableRow, maskedEq]

/-- A variable row selects the command words whose opcode it has under its mask: the word is too long for its footer to
begin before the payload, where the byte `00` is. -/
theorem variableRow_selects (name : String) (v m : Byte) (F : Bytes) :
    (variableRow name v m).selects F = true ↔ ∃ op p, commandIn F = some (op, p) ∧ op &&& m = v := by
  change (maskedEq F (variableRow name v m).mask (variableRow name v m).pattern &&
    decide (F.drop (F.length - 4) = [0x04, 0x03, 0x02, 0x01]) &&
      decide ((F[4]?.getD 0).toNat + 256 * (F[5]?.getD 0).toNat + 10 = F.length)) = true ↔ _
  rw [Bool.and_eq_true, Bool.and_eq_true, decide_eq_true_iff, decide_eq_true_iff, maskedEq_variable]
  simp only [commandIn_eq_some]
  constructor
  · rintro ⟨⟨⟨lo, hi, op, rest, hop, rfl⟩, htail⟩, hlen⟩
    have hlo := lo.isLt
    have hhi := hi.isLt
    have hread : lo.toNat + 256 * hi.toNat + 2 = rest.length := by simpa using hlen
    have hfooter : EndsInFooter .ack ([0xFD, 0xFC, 0xFB, 0xFA, lo, hi, op, 0x00] ++ rest) := ⟨by simp, htail⟩
    have h12 : 12 ≤ 8 + rest.length := by
      rw [← List.take_length (l := [0xFD, 0xFC, 0xFB, 0xFA, lo, hi, op, 0x00] ++ rest)] at hfooter
      rw [Nat.add_comm]
      exact twelve_le_of_footer rfl (Nat.le_refl _) hfooter
    have hrest : rest.drop (rest.length - 4) = [0x04, 0x03, 0x02, 0x01] := by
      rw [← htail, ← List.drop_length_add_append (l₁ := [0xFD, 0xFC, 0xFB, 0xFA, lo, hi, op, 0x00])]
      congr 1
      simp; omega
    have hlen' : (rest.take (rest.length - 4)).length = rest.length - 4 := List.length_take_of_le (by omega)
    refine ⟨op, rest.take (rest.length - 4), ⟨by omega, ?_⟩, hop⟩
    have hsplit := List.take_append_drop (rest.length - 4) rest
    rw [hrest] at hsplit
    rw [commandWord, le16_read (lo := lo) (hi := hi) (by omega), List.append_assoc, hsplit]
    rfl
  · rintro ⟨op, p, ⟨hp, rfl⟩, hop⟩
    have hfooter : EndsInFooter .ack (commandWord op p) := endsInFooter_append (by simp [le16])
    have hread : readLE16 ((commandWord op p)[4]?.getD 0) ((commandWord op p)[5]?.getD 0) = 2 + p.length :=
      readLE16_le16 (by omega)
    refine ⟨⟨⟨BitVec.ofNat 8 (2 + p.length), BitVec.ofNat 8 ((2 + p.length) / 256), op, p ++ [0x04, 0x03, 0x02, 0x01],
      hop, by simp [commandWord, le16]⟩, hfooter.2⟩, ?_⟩
    · change readLE16 _ _ + 10 = _
      rw [hread]
      simp [commandWord, le16]; omega

theorem cmdVarRow_selects (name : String) (op : Byte) (F : Bytes) :
    (cmdVarRow name op).selects F = true ↔ ∃ p, commandIn F = some (op, p) := by
  refine (variableRow_selects name op 0xFF F).trans ⟨?_, ?_⟩
  · rintro ⟨op', p, h, hop⟩
    rw [and_FF] at hop
    exact ⟨p, hop ▸ h⟩
  · rintro ⟨p, h⟩
    exact ⟨op, p, h, and_FF op⟩

/-! ## Which words a receive row selects -/

/-- The receive row of a family in the table. -/
def receiveTableRow (f : Family) : Row :=
  { mnemonic := (receiveRow f []).mnemonic, format := .rxVar, pattern := f.hdr, mask := [0xFF, 0xFF, 0xFF, 0xFF]
    tail := f.ftr }

/-- Under a mask of ones over its first bytes a word begins with the pattern. -/
theorem maskedEq_take {F v : Bytes} {n : Nat} (hn : n ≤ F.length) (hv : v.length = n) :
    maskedEq F (List.replicate n 0xFF) v = true ↔ F.take n = v := by
  have htake : (F.take n).length = n := List.length_take_of_le hn
  have happend := maskedEq_append (htake.trans hv.symm) (by rw [List.length_replicate, hv]) (F.drop n) [] []
    (m := List.replicate n 0xFF)
  rw [List.take_append_drop, List.append_nil, List.append_nil] at happend
  have hrest : maskedEq (F.drop n) [] [] = true := by cases F.drop n <;> rfl
  rw [happend, hrest, Bool.and_true, maskedEq_ones htake hv]

/-- It selects the frames of the family. -/
theorem receiveTableRow_selects (f : Family) (F : Bytes) :
    (receiveTableRow f).selects F = true ↔ (stripFrame f F).isSome = true := by
  change (decide (8 ≤ F.length) && maskedEq F (List.replicate 4 0xFF) f.hdr &&
    decide (F.drop (F.length - 4) = f.ftr)) = true ↔ _
  rw [Bool.and_eq_true, Bool.and_eq_true, decide_eq_true_iff, decide_eq_true_iff, and_assoc, stripFrame]
  have hhdr : 8 ≤ F.length → (maskedEq F (List.replicate 4 0xFF) f.hdr = true ↔ F.take 4 = f.hdr) := fun h8 =>
    maskedEq_take (by omega) (hdr_length f)
  rw [and_congr_right fun h8 => and_congr_left' (hhdr h8)]
  split
  · next hframe => exact iff_of_true hframe rfl
  · next hframe => exact iff_of_false hframe nofun

/-! ## The first row -/

/-- The search of the table, row by row. -/
theorem find_row (r : Row) (rows : List Row) (F : Bytes) :
    (r :: rows).find? (·.selects F) = if r.selects F = true then some r else rows.find? (·.selects F) := by
  rw [List.find?_cons]
  cases r.selects F <;> rfl

/-- The command rows of the table. -/
def commandRows : List Row := fixedRows ++ (varRows ++ [variableRow "ENCODE" 0x00 0x00])

/-- The fixed rows, by the command word or the lead each is of. -/
theorem fixedRows_eq : fixedRows =
    [cmdFixedRow "CFG_ENABLE" (commandWord 0xFF [0x01, 0x00]), cmdFixedRow "CFG_DISABLE" (commandWord 0xFE []),
      cmdFixedRow "QUERY_MAC" (commandWord 0xA5 [0x01, 0x00]), cmdFixedRow "BT_SET_on" (commandWord 0xA4 [0x01, 0x00]),
      cmdFixedRow "BT_SET_off" (commandWord 0xA4 [0x00, 0x00]), cmdFieldsRow "SET_BASIC" (leadOf 0x02 5) 5,
      cmdFieldsRow "SET_MOVE_SENS" (leadOf 0x03 14) 14, cmdFieldsRow "SET_STILL_SENS" (leadOf 0x04 14) 14] := rfl

/-- Five payload bytes, and no other number of them, are a `SET_BASIC`. -/
theorem setBasicOf_mnemonic (p : Bytes) :
    (setBasicOf p).map Instr.mnemonic = if p.length = 5 then some "SET_BASIC" else none := by
  unfold setBasicOf
  split
  · rfl
  · next hp =>
    refine (if_neg fun hlen => ?_).symm
    match p, hlen with
    | [a, b, c, d, e], _ => exact hp a b c d e rfl

/-- Fourteen payload bytes, and no other number of them, are a gate array. -/
theorem gatesOf_mnemonic (p : Bytes) {mk : Gates → Instr} {name : String} (hmk : ∀ g, (mk g).mnemonic = name) :
    ((gatesOf p).map mk).map Instr.mnemonic = if p.length = 14 then some name else none := by
  unfold gatesOf
  split
  · exact congrArg some (hmk _)
  · rfl

theorem setMoveSens_mnemonic (p : Bytes) : ((gatesOf p).map .setMoveSens).map Instr.mnemonic =
    if p.length = 14 then some "SET_MOVE_SENS" else none := gatesOf_mnemonic p fun _ => rfl

theorem setStillSens_mnemonic (p : Bytes) : ((gatesOf p).map .setStillSens).map Instr.mnemonic =
    if p.length = 14 then some "SET_STILL_SENS" else none := gatesOf_mnemonic p fun _ => rfl

/-! ### The rows that select a command word, by its opcode and payload -/

section Selected
variable {F : Bytes} {op : Byte} {p : Bytes} (h : commandIn F = some (op, p))
include h

theorem cmdFixedRow_selects_iff (name : String) (op' : Byte) {p' : Bytes} (hp : p'.length ≤ 65533) :
    (cmdFixedRow name (commandWord op' p')).selects F = true ↔ op = op' ∧ p = p' := by
  rw [cmdFixedRow_selects name hp, h, Option.some.injEq, Prod.mk.injEq]

theorem cmdFieldsRow_selects_iff (name : String) (op' : Byte) {n : Nat} (hn : n ≤ 65533) :
    (cmdFieldsRow name (leadOf op' n) n).selects F = true ↔ op = op' ∧ p.length = n := by
  rw [cmdFieldsRow_selects name op' hn, h]
  simp only [Option.some.injEq, Prod.mk.injEq, and_assoc, exists_and_left, exists_eq_left']

theorem cmdVarRow_selects_iff (name : String) (op' : Byte) : (cmdVarRow name op').selects F = true ↔ op = op' := by
  rw [cmdVarRow_selects name op', h]
  simp only [Option.some.injEq, Prod.mk.injEq, exists_and_left, exists_eq', and_true]

/-- The row of `ENCODE` selects every command word. -/
theorem encodeRow_selects : (variableRow "ENCODE" 0x00 0x00).selects F = true :=
  (variableRow_selects ..).2 ⟨op, p, h, BitVec.and_zero⟩

/-- The search among the fixed rows goes by the opcode, and with it by the payload. -/
theorem find_fixedRows : (fixedRows.find? (·.selects F)).map Row.mnemonic = (fixedRow op p).map Instr.mnemonic := by
  rw [fixedRows_eq]
  simp (disch := decide) only [find_row, cmdFixedRow_selects_iff h, cmdFieldsRow_selects_iff h, List.find?_nil]
  simp only [apply_ite (Option.map _), Option.map_some, Option.map_none, cmdFixedRow, cmdFieldsRow, fixedRow,
    Instr.mnemonic, setBasicOf_mnemonic, setMoveSens_mnemonic, setStillSens_mnemonic]
  by_cases hFF : op = 0xFF
  · subst hFF; simp
  by_cases hFE : op = 0xFE
  · subst hFE; simp
  by_cases hA5 : op = 0xA5
  · subst hA5; simp
  by_cases hA4 : op = 0xA4
  · subst hA4; simp
  by_cases h02 : op = 0x02
  · subst h02; simp
  by_cases h03 : op = 0x03
  · subst h03; simp
  by_cases h04 : op = 0x04
  · subst h04; simp
  simp only [hFF, hFE, hA5, hA4, h02, h03, h04, false_and, if_false]

/-- The search among the variable rows goes by the opcode alone, and `ENCODE` selects whatever is left. -/
theorem find_varRows : ((varRows ++ [variableRow "ENCODE" 0x00 0x00]).find? (·.selects F)).map Row.mnemonic =
    some (varRow op p).mnemonic := by
  simp only [varRows, List.cons_append, List.nil_append, find_row, cmdVarRow_selects_iff h, encodeRow_selects h, varRow,
    if_true, apply_ite (Option.map Row.mnemonic), apply_ite Instr.mnemonic, apply_ite some, Option.map_some]
  rfl

end Selected

/-- The rows of the assembler's own operations. -/
def feedTableRow : Row := { mnemonic := "FEED", format := .opByte, pattern := [0x00], mask := [0x00], tail := [] }
def resetTableRow : Row := { mnemonic := "RESET", format := .opNone, pattern := [], mask := [], tail := [] }

theorem opcodeTable_eq : opcodeTable =
    commandRows ++ [receiveTableRow .telemetry, receiveTableRow .ack, feedTableRow, resetTableRow] := rfl

/-- Among the command rows a command word is found under the name it decodes to: the fixed rows come first. -/
theorem find_commandRows {F : Bytes} {op : Byte} {p : Bytes} (h : commandIn F = some (op, p)) :
    (commandRows.find? (·.selects F)).map Row.mnemonic = some (named op p).mnemonic := by
  have hfixed := find_fixedRows h
  rw [commandRows, List.find?_append, Option.map_or, hfixed, find_varRows h, named]
  cases fixedRow op p <;> rfl

/-- A fixed row selects command words only. -/
theorem commandIn_of_fixedRow {F : Bytes} : ∀ r ∈ fixedRows, r.selects F = true → (commandIn F).isSome = true := by
  have hframe : ∀ {name op p}, p.length ≤ 65533 → (cmdFixedRow name (commandWord op p)).selects F = true →
      (commandIn F).isSome = true := fun hp h => by rw [(cmdFixedRow_selects _ hp F).1 h]; rfl
  have hfields : ∀ {name op n}, n ≤ 65533 → (cmdFieldsRow name (leadOf op n) n).selects F = true →
      (commandIn F).isSome = true := fun hn h => by
    obtain ⟨p, hp, -⟩ := (cmdFieldsRow_selects _ _ hn F).1 h
    rw [hp]; rfl
  simp only [fixedRows_eq, List.forall_mem_cons]
  exact ⟨hframe (by decide), hframe (by decide), hframe (by decide), hframe (by decide), hframe (by decide),
    hfields (by decide), hfields (by decide), hfields (by decide), nofun⟩

/-- So does a variable row, `ENCODE` among them. -/
theorem commandIn_of_varRow {F : Bytes} :
    ∀ r ∈ varRows ++ [variableRow "ENCODE" 0x00 0x00], r.selects F = true → (commandIn F).isSome = true := by
  have hvar : ∀ {name v m}, (variableRow name v m).selects F = true → (commandIn F).isSome = true := fun h => by
    obtain ⟨op, p, hp, -⟩ := (variableRow_selects _ _ _ F).1 h
    rw [hp]; rfl
  simp only [varRows, List.cons_append, List.nil_append, List.forall_mem_cons]
  exact ⟨hvar, hvar, hvar, hvar, hvar, hvar, hvar, hvar, hvar, hvar, hvar, hvar, hvar, nofun⟩

/-- A word that is no command is found among none of them. -/
theorem find_commandRows_none {F : Bytes} (h : commandIn F = none) : commandRows.find? (·.selects F) = none := by
  refine List.find?_eq_none.2 fun r hr hsel => ?_
  have hsome : (commandIn F).isSome = true :=
    (List.mem_append.1 hr).elim (commandIn_of_fixedRow r · hsel) (commandIn_of_varRow r · hsel)
  rw [h] at hsome
  cases hsome

/-- The row of a word that is no command: a receive row's by its frame, `FEED` by its length, or `RESET`. -/
theorem firstRow_of_no_command {F : Bytes} (h : commandIn F = none) : firstRow F =
    if (stripFrame .telemetry F).isSome = true then some (receiveTableRow .telemetry)
    else if (stripFrame .ack F).isSome = true then some (receiveTableRow .ack)
    else [feedTableRow, resetTableRow].find? (·.selects F) := by
  rw [firstRow, opcodeTable_eq, List.find?_append, find_commandRows_none h, Option.none_or]
  simp only [find_row _ _ F, receiveTableRow_selects]

theorem commandIn_of_no_frame {F : Bytes} (h : stripFrame .ack F = none) : commandIn F = none := by
  rw [commandIn, h]; rfl

/-- A frame of the command constants is no telemetry frame. -/
theorem stripFrame_telemetry_ack (body : Bytes) :
    stripFrame .telemetry (Family.ack.hdr ++ body ++ Family.ack.ftr) = none := by
  simp [stripFrame, Family.hdr]

/-- A word that is no frame is that of `FEED`, or of `RESET`, by its length. -/
theorem firstRow_of_no_frame {F : Bytes} (h : ∀ f, stripFrame f F = none) :
    firstRow F = [feedTableRow, resetTableRow].find? (·.selects F) := by
  rw [firstRow_of_no_command (commandIn_of_no_frame (h .ack)), h .telemetry, h .ack]
  rfl

theorem feedTableRow_selects (F : Bytes) : feedTableRow.selects F = true ↔ F.length = 1 := by
  change (decide (F.length = 1) && maskedEq F [0x00] [0x00]) = true ↔ _
  rw [Bool.and_eq_true, decide_eq_true_iff, and_iff_left_iff_imp]
  intro h1
  match F, h1 with
  | [b], _ => exact maskedEq_zeros [b]

theorem resetTableRow_selects (F : Bytes) : resetTableRow.selects F = true ↔ F.length = 0 := decide_eq_true_iff

/-- The mnemonic of the first row is that of the operation decoded. -/
theorem firstRow_mnemonic {w : Bytes} {d : Except DecodeError Instr} (h : ReadsAs w d) :
    (firstRow w).map Row.mnemonic = d.toOption.map Instr.mnemonic := by
  cases h with
  | reset => rfl
  | feed b =>
    rw [firstRow_of_no_frame fun f => stripFrame_of_short (by simp), find_row, if_pos ((feedTableRow_selects _).2 rfl)]
    rfl
  | @command op p hp =>
    rw [firstRow, opcodeTable_eq, List.find?_append, Option.map_or, find_commandRows (commandIn_commandWord hp)]
    rfl
  | @ack body hbody =>
    have hnone : commandIn (Family.ack.hdr ++ body ++ Family.ack.ftr) = none := by
      rw [commandIn, stripFrame_frame]; exact hbody
    rw [firstRow_of_no_command hnone, stripFrame_telemetry_ack, stripFrame_frame]
    rfl
  | telemetry body =>
    rw [firstRow_of_no_command (commandIn_of_no_frame (stripFrame_other body)), stripFrame_frame]
    rfl
  | refused e h2 hno =>
    rw [firstRow_of_no_frame hno, find_row, find_row, if_neg fun h => by rw [feedTableRow_selects] at h; omega,
      if_neg fun h => by rw [resetTableRow_selects] at h; omega]
    rfl

/-- Settles O7: row and operation have one mnemonic, or there is neither. -/
theorem decoderTakesTheFirstSelectingRow : Obligations.DecoderTakesTheFirstSelectingRow := by
  intro w
  have h := firstRow_mnemonic (readsAs_decode w)
  cases hrow : firstRow w <;> cases hdec : decode w <;> rw [hrow, hdec] at h
  case none.error => trivial
  case some.ok r i => exact (Option.some.inj h).symm
  all_goals cases h

end Sys2Proof
end
